-- ==== Sys2Proof/Word.lean ====
section
/-! DEFINITION. The word types of the block: 32-bit registers and addresses, 8-bit samples, and the two staging
arrays as fixed-length vectors (spec/10_state.md R10, R11, R15). -/

namespace Sys2Proof

/-- A 32-bit register, address, stride or command word (00_scope.md R4 `AW` = 32, 10_state.md R15). -/
abbrev Word := BitVec 32

/-- A sample, an endpoint, a table entry or a byte of memory: unsigned 8 bits (00_scope.md R5). -/
abbrev Byte := BitVec 8

/-- Sixteen samples, row-major: sample (r, c) is entry `4*r + c` (00_scope.md R7). -/
abbrev Block := Vector Byte 16

/-- Eight bytes: endpoint A, endpoint B, six index bytes (30_encoding.md R56). -/
abbrev CBlock := Vector Byte 8

/-- An index or code: an unsigned 3-bit number (00_scope.md R5). -/
abbrev Code := Fin 8

/-- The sixteen codes of a block, code `i` belonging to sample `i` (30_encoding.md R57). -/
abbrev Codes := Vector Code 16

/-- The eight table entries `T[0..7]` (30_encoding.md R61). -/
abbrev Table := Vector Byte 8

end Sys2Proof
end

