-- ==== Sys2Proof/Syntax.lean ====
section
/-! DEFINITION. The eleven commands of the block (spec/30_encoding.md R52, spec/opcode_table.json). -/

namespace Sys2Proof

/-- One constructor for each row of the opcode table. The handle is the only operand a command word carries
(30_encoding.md R51); every other operand is a register. A handle is the unsigned number `h = zext(w[15:8])` (R51),
0 being the null handle (R53). -/
inductive Instr where
  /-- OPT_CREATE, 40_options.md R80. -/
  | optCreate
  /-- OPT_DESTROY h, 40_options.md R81. -/
  | optDestroy (h : Nat)
  /-- OPT_SETQ h, 40_options.md R82. -/
  | optSetq (h : Nat)
  /-- EXT1, 43_block_io.md R105. -/
  | ext1
  /-- EXT4, 43_block_io.md R106. -/
  | ext4
  /-- LDCB, 43_block_io.md R108. -/
  | ldcb
  /-- ENC h, 41_encoder.md R90. -/
  | enc (h : Nat)
  /-- DEC h, 42_decoder.md R100. -/
  | dec (h : Nat)
  /-- STCB, 43_block_io.md R109. -/
  | stcb
  /-- STB1, 43_block_io.md R110. -/
  | stb1
  /-- STB4, 43_block_io.md R111. -/
  | stb4
  deriving DecidableEq, Repr

end Sys2Proof
end

