-- ==== Sys2Proof/WellFormed.lean ====
section
/-! DEFINITION. Which commands have a command word: the handle operand is an 8-bit number (spec/30_encoding.md R51,
R53). -/

namespace Sys2Proof

/-- A handle fits the HANDLE field, bits 15:8 (30_encoding.md R50, R51). -/
def handleFits (h : Nat) : Bool := decide (h ≤ 255)

/-- The command can be encoded. -/
def Instr.wellFormed : Instr → Bool
  | .optCreate => true
  | .optDestroy h => handleFits h
  | .optSetq h => handleFits h
  | .ext1 => true
  | .ext4 => true
  | .ldcb => true
  | .enc h => handleFits h
  | .dec h => handleFits h
  | .stcb => true
  | .stb1 => true
  | .stb4 => true

end Sys2Proof
end

