-- ==== Sys2Proof/Decode.lean ====
section
/-! DEFINITION. The command decoder and, after it, the encoder (spec/30_encoding.md R50 to R55). -/

namespace Sys2Proof

/-- Why a command word is illegal: the three conditions of 30_encoding.md R54, in its order. -/
inductive Illegal where
  /-- `w[31:16] ≠ 0`. -/
  | zeroField
  /-- `w[7:0]` is none of the eleven opcodes; every other value is reserved (R52, R54). -/
  | opcode
  /-- The opcode's format is CMD-N and `w[15:8] ≠ 0`. -/
  | handleField
  deriving DecidableEq, Repr

/-- ZERO, bits 31:16 (30_encoding.md R50). -/
def zeroField (w : Word) : BitVec 16 := w.extractLsb' 16 16

/-- HANDLE, bits 15:8, as the number `h` (30_encoding.md R50, R51). -/
def handleField (w : Word) : Nat := (w.extractLsb' 8 8).toNat

/-- OPC, bits 7:0 (30_encoding.md R50). -/
def opcField (w : Word) : Nat := (w.extractLsb' 0 8).toNat

/-- Format CMD-N: the HANDLE field must be zero (30_encoding.md R50, R54). -/
def noHandle (h : Nat) (i : Instr) : Except Illegal Instr :=
  if h = 0 then .ok i else .error .handleField

/-- The opcode map (30_encoding.md R52). -/
def decodeOpc (opc h : Nat) : Except Illegal Instr :=
  match opc with
  | 0x01 => noHandle h .optCreate
  | 0x02 => .ok (.optDestroy h)
  | 0x03 => .ok (.optSetq h)
  | 0x10 => noHandle h .ext1
  | 0x11 => noHandle h .ext4
  | 0x12 => noHandle h .ldcb
  | 0x20 => .ok (.enc h)
  | 0x21 => .ok (.dec h)
  | 0x30 => noHandle h .stcb
  | 0x31 => noHandle h .stb1
  | 0x32 => noHandle h .stb4
  | _ => .error .opcode

/-- The command a word written to CMD encodes, or why it encodes none (30_encoding.md R50 to R55). -/
def decode (w : Word) : Except Illegal Instr :=
  if zeroField w = 0 then decodeOpc (opcField w) (handleField w) else .error .zeroField

/-- The word `h * 256 + OPC` of a CMD-H command; CMD-N is the case `h = 0` (30_encoding.md R71). -/
def cmdWord (opc h : Nat) : Word := BitVec.ofNat 32 (h * 256 + opc)

/-- The command word of an instruction (30_encoding.md R50, R52, R71). -/
def encode : Instr → Word
  | .optCreate => cmdWord 0x01 0
  | .optDestroy h => cmdWord 0x02 h
  | .optSetq h => cmdWord 0x03 h
  | .ext1 => cmdWord 0x10 0
  | .ext4 => cmdWord 0x11 0
  | .ldcb => cmdWord 0x12 0
  | .enc h => cmdWord 0x20 h
  | .dec h => cmdWord 0x21 h
  | .stcb => cmdWord 0x30 0
  | .stb1 => cmdWord 0x31 0
  | .stb4 => cmdWord 0x32 0

/-- The instruction read from a word numbered as spec/opcode_table.json numbers it. A command word is 32 bits, so
bits at and above `nbits` are 0; no word is wider. -/
def decodeTableWord (nbits w : Nat) : Option Instr :=
  if nbits ≤ 32 then
    match decode (BitVec.ofNat 32 (w % 2 ^ nbits)) with
    | .ok i => some i
    | .error _ => none
  else none

end Sys2Proof
end

