-- ==== Sys2Proof/Config.lean ====
section
/-! DEFINITION. The block's parameters (spec/00_scope.md R4) and its one free value. The OPEN parameters `N_OPT` and
`MemBacked` are not constants here: they are part of `State` (its slot list and its region list), so that a statement
about every state covers every value of them; this file holds what `State.reset` takes for them. -/

namespace Sys2Proof.Config

/-- `R7`, the bias before `div 7` (00_scope.md R4, D19); a codec function takes it as an argument, the alternative
value being 0. UNVERIFIED (log 13). -/
def r7 : Nat := 3

/-- `R5`, the bias before `div 5` (00_scope.md R4, D19). UNVERIFIED (log 13). -/
def r5 : Nat := 2

/-- `DEFAULT_QUALITY`, the binary32 pattern of 1.0 (00_scope.md R4, D14). -/
def defaultQuality : Word := 0x3F800000#32

/-- `ST_OK` (30_encoding.md R70). -/
def stOk : Word := 0#32

/-- `ST_ERR_NEWMEM` (30_encoding.md R70, D15). -/
def stErrNewMem : Word := 1#32

/-- `ST_ERR_INVALIDPTR` (30_encoding.md R70, D15). -/
def stErrInvalidPtr : Word := 2#32

/-- `ST_FAIL`, minus one (30_encoding.md R70). -/
def stFail : Word := 0xFFFFFFFF#32

/-- The number of option slots of `State.reset`. `N_OPT` is OPEN (00_scope.md R4, D11); the value is that of the
vectors of 95_test_vectors.md. DESIGN CHOICE (log 1), unsafe: only for what is said of `State.reset`. -/
def resetSlots : Nat := 2

/-- The byte that an address of memory reads as before anything wrote it. DESIGN CHOICE (log 3), unsafe. -/
def unwrittenByte : Byte := 0#8

/-- Whether the byte at address `a` is written when reset cuts a storing command short (70_reset_and_hazards.md R141,
93_implementation_defined.md U15). A FREE VALUE (log 10): the first argument is the draw's number. -/
opaque tornByte : Nat → Nat → Bool

end Sys2Proof.Config
end

