-- ==== Sys2Proof/Machine/State.lean ====
section
/-! DEFINITION. The state of the block, its memory, its platform and its host (spec/10_state.md, INVENTORY.md '## State'),
the reasons a step can stop, and the state after reset. -/

namespace Sys2Proof.Machine

/-- MEM (20_memory.md R31): the bytes that differ from `Config.unwrittenByte`, by rising address. -/
abbrev Memory := List Host.Cell

/-- One option slot `OPT[k]` (10_state.md R13). -/
structure OptSlot where
  /-- `OPT[k].valid`: the slot holds a live Options value. -/
  valid : Bool
  /-- `OPT[k].quality`: a binary32 bit pattern. -/
  quality : Word
  deriving DecidableEq, Repr

/-- A run of addresses that the platform backs with memory (00_scope.md R4 `MemBacked`, 20_memory.md R36). -/
structure Region where
  base : Nat
  size : Nat
  deriving DecidableEq, Repr

/-- How wide a host-port access is; only `word` is defined (10_state.md R22). -/
inductive AccessWidth where
  | byte
  | half
  | word
  | double
  deriving DecidableEq, Repr

/-- One operation of the host or of the platform (10_state.md R19, 30_encoding.md R71, 70_reset_and_hazards.md R141,
R153). -/
inductive HostOp where
  /-- A write of `value` to the register at `offset`; the value matters for the width `word` only. -/
  | write (width : AccessWidth) (offset : Nat) (value : Word)
  /-- A read of the register at `offset`. -/
  | read (width : AccessWidth) (offset : Nat)
  /-- `MW`: the bytes are stored at ascending addresses from `addr`. -/
  | memWrite (addr : Word) (bytes : List Byte)
  /-- `MR`: `n` bytes are read at ascending addresses from `addr`. -/
  | memRead (addr : Word) (n : Nat)
  /-- RESET between commands (70_reset_and_hazards.md R140). -/
  | reset
  /-- A write of `command` to CMD that RESET cuts short (70_reset_and_hazards.md R141). -/
  | resetDuring (command : Word)
  deriving DecidableEq, Repr

/-- What one host read returned (the model's own record, log 5). -/
inductive HostResult where
  | reg (offset : Nat) (value : Word)
  | mem (addr : Word) (bytes : List Byte)
  deriving DecidableEq, Repr

/-- Everything the spec gives the machine (10_state.md R24), the platform's parameters, and the host's side. -/
structure State where
  /-- `BLK[0..15]` (R10). -/
  blk : Block
  /-- `CB[0..7]` (R11). -/
  cb : CBlock
  /-- `OPT[0..N_OPT−1]` (R13); its length is `N_OPT`. -/
  opts : List OptSlot
  /-- `ARG` (R15). -/
  arg : Word
  /-- `SRC_ADDR` (R15). -/
  srcAddr : Word
  /-- `SRC_STRIDE` (R15). -/
  srcStride : Word
  /-- `DST_ADDR` (R15). -/
  dstAddr : Word
  /-- `STATUS` (R16). -/
  status : Word
  /-- `RESULT` (R17). -/
  result : Word
  /-- `MEM` (20_memory.md R31). -/
  mem : Memory
  /-- The platform's `MemBacked` as a list of regions (00_scope.md R4; log 2). -/
  backed : List Region
  /-- The pending host operations, first one first (R19; log 4). -/
  host : List HostOp
  /-- What the host has read so far, oldest first (log 5). -/
  reads : List HostResult
  /-- Some command was given a stale handle (93_implementation_defined.md U2; log 6). -/
  staleUsed : Bool
  /-- Some illegal word was written to CMD (93_implementation_defined.md U10; log 7). -/
  illegalUsed : Bool
  /-- How many free values have been drawn (log 10). -/
  draws : Nat
  deriving DecidableEq, Repr

/-- The block has no trap (60_exceptions.md R120); these are the uses the spec puts outside its rules. -/
inductive Fault where
  /-- A memory command touches address `addr`, which the platform does not back (20_memory.md R36; U3, U11). Raised by
  EXT1, EXT4, LDCB, STCB, STB1, STB4. Safe: the machine stops where the spec gives no behaviour. -/
  | unbackedCommand (addr : Nat)
  /-- The host's own `MW` or `MR` touches such an address. Raised by the host port. Safe (log 8). -/
  | unbackedHost (addr : Nat)
  deriving DecidableEq, Repr

/-- What the model gives no meaning. -/
inductive Refusal where
  /-- An instruction without a meaning; no arm of `exec` uses it. Safe. -/
  | notModelled (mnemonic : String)
  /-- A host-port access that is not an aligned 32-bit one (10_state.md R22: "outside the spec and a model refuses it",
  U9). Raised by the host port. Safe (log 9). -/
  | hostAccess (width : AccessWidth) (offset : Nat)
  deriving DecidableEq, Repr

/-- A free slot (10_state.md R14, R25). -/
def OptSlot.free : OptSlot := ⟨false, 0#32⟩

/-- The state after reset (10_state.md R25, 70_reset_and_hazards.md R140) of a block with two slots (log 1) on a
platform that backs every address (log 2), with nothing in memory (log 3) and no host operation pending (log 4). -/
def State.reset : State where
  blk := Vector.replicate 16 0#8
  cb := Vector.replicate 8 0#8
  opts := List.replicate Config.resetSlots OptSlot.free
  arg := 0#32
  srcAddr := 0#32
  srcStride := 0#32
  dstAddr := 0#32
  status := Config.stOk
  result := 0#32
  mem := []
  backed := [⟨0, 2 ^ 32⟩]
  host := []
  reads := []
  staleUsed := false
  illegalUsed := false
  draws := 0

end Sys2Proof.Machine
end

