-- ==== Sys2Proof/Machine/Ops.lean ====
section
/-! DEFINITION. The shared operations: memory bytes, backed addresses, the two ways a command ends (`return OK` and
`raise`), and the block's reset. The block has no trap; `raise` is what stands in the place of taking an exception, and
there is no return from it (spec/60_exceptions.md R120, R121, R127). -/

namespace Sys2Proof.Machine

/-! ### Memory (20_memory.md R31, R33, R37) -/

/-- The byte at address `a`: the last byte written there (20_memory.md R37). -/
def Memory.read : Memory → Nat → Byte
  | [], _ => Config.unwrittenByte
  | (b, v) :: m, a => if a = b then v else Memory.read m a

/-- Put a cell in front, unless it says what an unlisted address reads as. -/
def Memory.cons (a : Nat) (v : Byte) (m : Memory) : Memory :=
  if v = Config.unwrittenByte then m else (a, v) :: m

/-- Store byte `v` at address `a`, keeping the canonical form. -/
def Memory.write : Memory → Nat → Byte → Memory
  | [], a, v => Memory.cons a v []
  | (b, x) :: m, a, v =>
    if a < b then Memory.cons a v ((b, x) :: m)
    else if a = b then Memory.cons a v m
    else (b, x) :: Memory.write m a v

/-- The cells' addresses lie at or above `lo` and below 2^32 and rise strictly, and no cell says what an unlisted
address reads as. -/
def Memory.wfFrom : Nat → Memory → Bool
  | _, [] => true
  | lo, (b, v) :: m =>
    decide (lo ≤ b) && decide (b < 2 ^ 32) && decide (v ≠ Config.unwrittenByte) && Memory.wfFrom (b + 1) m

/-- The canonical form of a memory. -/
def Memory.wf (m : Memory) : Bool := Memory.wfFrom 0 m

/-- A byte and the address it goes to. -/
abbrev StoreCell := Word × Byte

/-- `MemWrite` of each cell, in ascending index (20_memory.md R37). -/
def Memory.writeCells (m : Memory) (cells : List StoreCell) : Memory :=
  cells.foldl (fun m c => m.write c.1.toNat c.2) m

/-- `MemRead(a, 1)` (00_scope.md R6). -/
def State.readByte (s : State) (a : Word) : Byte := s.mem.read a.toNat

/-- `MemBacked(a)` (00_scope.md R4, 20_memory.md R36). -/
def State.isBacked (s : State) (a : Word) : Bool :=
  s.backed.any fun r => decide (r.base ≤ a.toNat) && decide (a.toNat < r.base + r.size)

/-- The first of the addresses that the platform does not back. -/
def State.firstUnbacked (s : State) (addrs : List Word) : Option Word :=
  addrs.find? fun a => !s.isBacked a

/-- The outcome of one step of the machine. -/
abbrev Result := Host.Outcome State Fault Refusal

/-- A command that accesses `addrs` has its effect when all of them are backed, and faults otherwise, with no effect
(20_memory.md R36). -/
def onBacked (addrs : List Word) (s : State) (t : Result) : Result :=
  match s.firstUnbacked addrs with
  | some a => .fault (.unbackedCommand a.toNat)
  | none => t

/-! ### How a command ends (00_scope.md R6, 60_exceptions.md R120, R121) -/

/-- `return OK`: STATUS becomes `ST_OK` and the command ends. -/
def returnOk (s : State) : Result := .next { s with status := Config.stOk }

/-- `raise code`: the code goes to STATUS and the command ends. `s` is the state before the command with only the
assignments the rule lists before the `raise` (60_exceptions.md R121). -/
def raise (code : Word) (s : State) : Result := .next { s with status := code }

/-- An illegal command word performs `raise ST_FAIL` (30_encoding.md R54); the run is marked (U10, log 7). -/
def raiseIllegal (s : State) : Result := raise Config.stFail { s with illegalUsed := true }

/-! ### Reset (10_state.md R25, 70_reset_and_hazards.md R140) -/

/-- The block's state as after reset; memory, the platform, the host's side and the run's marks stay. -/
def resetBlock (s : State) : State :=
  { s with
    blk := Vector.replicate 16 0#8
    cb := Vector.replicate 8 0#8
    opts := List.replicate s.opts.length OptSlot.free
    arg := 0#32
    srcAddr := 0#32
    srcStride := 0#32
    dstAddr := 0#32
    status := Config.stOk
    result := 0#32 }

end Sys2Proof.Machine
end

