-- ==== Sys2Proof/Machine/Operands.lean ====
section
/-! DEFINITION. The operand forms: the handle and how a command resolves it (spec/30_encoding.md R53,
spec/40_options.md R83), and the address pattern of each memory command (spec/20_memory.md R35,
spec/43_block_io.md). -/

namespace Sys2Proof.Machine

/-! ### Handles -/

/-- `Live(h)` (30_encoding.md R53): `1 ≤ h ≤ N_OPT` and `OPT[h−1].valid = 1`. -/
def isLive (h : Nat) (s : State) : Bool :=
  match h with
  | 0 => false
  | k + 1 =>
    match s.opts[k]? with
    | some o => o.valid
    | none => false

/-- A non-zero handle that is not live (30_encoding.md R53). -/
def isStale (h : Nat) (s : State) : Bool := decide (h ≠ 0) && !isLive h s

/-- `raise ST_ERR_INVALIDPTR` (40_options.md R81 to R83); the use of a stale handle marks the run (U2, log 6). -/
def raiseInvalidPtr (h : Nat) (s : State) : Result :=
  raise Config.stErrInvalidPtr { s with staleUsed := s.staleUsed || isStale h s }

/-- `OPT[h−1].quality`. -/
def qualityOf (h : Nat) (s : State) : Word :=
  match s.opts[h - 1]? with
  | some o => o.quality
  | none => 0#32

/-- `ResolveOptions(h)` (40_options.md R83): the quality, or nothing where it raises. -/
def resolveOptions (h : Nat) (s : State) : Option Word :=
  if h = 0 then some Config.defaultQuality
  else if isLive h s then some (qualityOf h s)
  else none

/-! ### Addresses, all modulo 2^32 (20_memory.md R35) -/

/-- `(b + r*s + o) mod 2^32`. -/
def addrAt (base stride : Word) (r o : Nat) : Word :=
  base + BitVec.ofNat 32 r * stride + BitVec.ofNat 32 o

/-- The address of sample `i = 4*r + c` for EXT1 (43_block_io.md R105). -/
def ext1Addr (s : State) (i : Fin 16) : Word := addrAt s.srcAddr s.srcStride (i.val / 4) (i.val % 4)

/-- The address of the R byte of texel `i = 4*r + c` for EXT4 (43_block_io.md R106, R107). -/
def ext4Addr (s : State) (i : Fin 16) : Word := addrAt s.srcAddr s.srcStride (i.val / 4) (4 * (i.val % 4))

/-- The address of compressed-block byte `j` for LDCB (43_block_io.md R108). -/
def ldcbAddr (s : State) (j : Fin 8) : Word := s.srcAddr + BitVec.ofNat 32 j.val

/-- The 8 cells STCB stores (43_block_io.md R109). -/
def stcbCells (s : State) : List StoreCell :=
  (List.finRange 8).map fun j => (s.dstAddr + BitVec.ofNat 32 j.val, s.cb[j])

/-- The 16 cells STB1 stores (43_block_io.md R110). -/
def stb1Cells (s : State) : List StoreCell :=
  (List.finRange 16).map fun i => (s.dstAddr + BitVec.ofNat 32 i.val, s.blk[i])

/-- The 64 cells STB4 stores: byte `k = 4*i + n` is sample `i` (43_block_io.md R111). -/
def stb4Cells (s : State) : List StoreCell :=
  (List.finRange 64).map fun k => (s.dstAddr + BitVec.ofNat 32 k.val, s.blk[k.val / 4])

/-- The addresses a command reads, in ascending index (10_state.md R26, last column). -/
def loadAddrs (i : Instr) (s : State) : List Word :=
  match i with
  | .ext1 => (List.finRange 16).map (ext1Addr s)
  | .ext4 => (List.finRange 16).map (ext4Addr s)
  | .ldcb => (List.finRange 8).map (ldcbAddr s)
  | .optCreate | .optDestroy _ | .optSetq _ | .enc _ | .dec _ | .stcb | .stb1 | .stb4 => []

/-- The cells a command stores, in ascending index (10_state.md R26, last column). -/
def storeCells (i : Instr) (s : State) : List StoreCell :=
  match i with
  | .stcb => stcbCells s
  | .stb1 => stb1Cells s
  | .stb4 => stb4Cells s
  | .optCreate | .optDestroy _ | .optSetq _ | .ext1 | .ext4 | .ldcb | .enc _ | .dec _ => []

/-- Every address a command accesses. -/
def accessed (i : Instr) (s : State) : List Word :=
  loadAddrs i s ++ (storeCells i s).map Prod.fst

end Sys2Proof.Machine
end

