-- ==== Sys2Proof/Machine/BlockIo.lean ====
section
/-! DEFINITION. The commands that load from and store to memory: EXT1, EXT4, LDCB, STCB, STB1, STB4
(spec/43_block_io.md R105 to R111). None of them fails; one that touches an unbacked address is outside the spec and
faults (spec/20_memory.md R36). -/

namespace Sys2Proof.Machine

/-- EXT1 (43_block_io.md R105). -/
def execExt1 (s : State) : Result :=
  onBacked (loadAddrs .ext1 s) s (returnOk { s with blk := Vector.ofFn fun i => s.readByte (ext1Addr s i) })

/-- EXT4 (43_block_io.md R106). -/
def execExt4 (s : State) : Result :=
  onBacked (loadAddrs .ext4 s) s (returnOk { s with blk := Vector.ofFn fun i => s.readByte (ext4Addr s i) })

/-- LDCB (43_block_io.md R108). -/
def execLdcb (s : State) : Result :=
  onBacked (loadAddrs .ldcb s) s (returnOk { s with cb := Vector.ofFn fun j => s.readByte (ldcbAddr s j) })

/-- A store of the cells, when every one of their addresses is backed. -/
def storeAll (cells : List StoreCell) (s : State) : Result :=
  onBacked (cells.map Prod.fst) s (returnOk { s with mem := s.mem.writeCells cells })

/-- STCB (43_block_io.md R109). -/
def execStcb (s : State) : Result := storeAll (stcbCells s) s

/-- STB1 (43_block_io.md R110). -/
def execStb1 (s : State) : Result := storeAll (stb1Cells s) s

/-- STB4 (43_block_io.md R111). -/
def execStb4 (s : State) : Result := storeAll (stb4Cells s) s

end Sys2Proof.Machine
end

