-- ==== Sys2Proof/Machine/Flags.lean ====
section
/-! DEFINITION. The block has no condition codes (spec/10_state.md R20). What stands in their place: the mode of a
compressed block, computed from its endpoints each time it is needed, and the valid bits of the slots as the host sees
them in OPTV. -/

namespace Sys2Proof.Machine

/-- The two interpolation schemes (30_encoding.md R58). -/
inductive Mode where
  | eight
  | six
  deriving DecidableEq, Repr

/-- `Mode(A, B)` (30_encoding.md R58): 8-level when `A > B` unsigned, else 6-level. -/
def modeOf (a b : Byte) : Mode := if b.toNat < a.toNat then .eight else .six

/-- The valid bits as a number, slot 0 in bit 0. -/
def validBits : List OptSlot → Nat
  | [] => 0
  | o :: os => o.valid.toNat + 2 * validBits os

/-- `OPTV` (10_state.md R23): bit k is `OPT[k].valid`; slots 32 and above are not visible. -/
def optvWord (opts : List OptSlot) : Word := BitVec.ofNat 32 (validBits (opts.take 32))

end Sys2Proof.Machine
end

