-- ==== Sys2Proof/Machine/Codec.lean ====
section
/-! DEFINITION. The pure functions of the codec (spec/30_encoding.md R57 to R68, spec/41_encoder.md R91 to R96).
The rounding biases are arguments (`…With r7 r5`, spec/00_scope.md R4); the block takes them from `Config`. -/

namespace Sys2Proof.Machine

/-! ### The quality scalar -/

/-- `ClampQ(w)` (30_encoding.md R68), an integer comparison of bit patterns. -/
def clampQ (w : Word) : Word :=
  if w.getLsbD 31 then 0x00000000#32
  else if (w.extractLsb' 0 31).toNat > 0x3F800000 then 0x3F800000#32
  else w

/-! ### The interpolation table -/

/-- `L8(k)`, the levels of the 8-level mode, `A > B` (30_encoding.md R60). -/
def level8 (r7 a b k : Nat) : Nat := (k * a + (7 - k) * b + r7) / 7

/-- `L6(k)`, the levels of the 6-level mode, `A ≤ B` (30_encoding.md R60). -/
def level6 (r5 a b k : Nat) : Nat := ((5 - k) * a + k * b + r5) / 5

/-- Entry `i` of the 8-level table (30_encoding.md R62). -/
def entry8 (r7 a b i : Nat) : Nat :=
  match i with
  | 0 => a
  | 1 => b
  | _ => ((8 - i) * a + (i - 1) * b + r7) / 7

/-- Entry `i` of the 6-level table (30_encoding.md R63). -/
def entry6 (r5 a b i : Nat) : Nat :=
  match i with
  | 0 => a
  | 1 => b
  | 6 => 0
  | 7 => 255
  | _ => ((6 - i) * a + (i - 1) * b + r5) / 5

/-- Entry `i` of `Table(A, B)` (30_encoding.md R61). -/
def entryWith (r7 r5 : Nat) (a b : Byte) (i : Nat) : Nat :=
  match modeOf a b with
  | .eight => entry8 r7 a.toNat b.toNat i
  | .six => entry6 r5 a.toNat b.toNat i

/-- `Table(A, B)` (30_encoding.md R61): the one table ENC and DEC use. -/
def tableWith (r7 r5 : Nat) (a b : Byte) : Table :=
  Vector.ofFn fun i => BitVec.ofNat 8 (entryWith r7 r5 a b i.val)

/-! ### The index field -/

/-- `V = sum of idx[i] * 2^(3*i)` (30_encoding.md R57), least significant code first. -/
def codesValue (idx : Codes) : Nat := idx.toList.foldr (fun c v => c.val + 8 * v) 0

/-- `V = sum of c[2+j] * 2^(8*j)` (30_encoding.md R57), least significant byte first. -/
def bytesValue (bytes : List Byte) : Nat := bytes.foldr (fun b v => b.toNat + 256 * v) 0

/-- Byte `2 + j` of a compressed block whose index field is `V` (30_encoding.md R57). -/
def indexByte (v j : Nat) : Byte := BitVec.ofNat 8 (v / 2 ^ (8 * j))

/-- `UnpackIdx(c[2..7])` (30_encoding.md R57). -/
def unpackIdx (cb : CBlock) : Codes :=
  Vector.ofFn fun i => Fin.ofNat 8 (bytesValue (cb.toList.drop 2) / 2 ^ (3 * i.val))

/-- The compressed block of two endpoints and sixteen codes: `[A, B] ++ PackIdx(idx)` (30_encoding.md R56, R57). -/
def packBlock (a b : Byte) (idx : Codes) : CBlock :=
  Vector.ofFn fun j =>
    match j.val with
    | 0 => a
    | 1 => b
    | k + 2 => indexByte (codesValue idx) k

/-! ### Decoding -/

/-- `DecodeBlock(c)` (30_encoding.md R65). -/
def decodeBlockWith (r7 r5 : Nat) (cb : CBlock) : Block :=
  let t := tableWith r7 r5 (cb[0]) (cb[1])
  let idx := unpackIdx cb
  Vector.ofFn fun i => t[idx[i]]

/-! ### Encoding -/

/-- `|x − y|` of two samples (00_scope.md R5, 41_encoder.md R93). -/
def absDiff (x y : Byte) : Nat := (x.toNat - y.toNat) + (y.toNat - x.toNat)

/-- `Nearest(T, s)` (41_encoder.md R93): scanning upwards, a later code wins only when it is strictly nearer, so the
lowest of the nearest codes is taken. -/
def nearest (t : Table) (s : Byte) : Code :=
  (List.finRange 8).foldl (fun best j => if absDiff s (t[j]) < absDiff s (t[best]) then j else best) 0

/-- The nearest code of every sample (41_encoder.md R94). -/
def quantize (t : Table) (s : Block) : Codes := Vector.ofFn fun i => nearest t (s[i])

/-- The sum of squared errors of a choice of codes (41_encoder.md R94, D22). -/
def squaredError (t : Table) (s : Block) (idx : Codes) : Nat :=
  ((List.finRange 16).map fun i => absDiff (s[i]) (t[idx[i]]) ^ 2).sum

/-- `lo`, the least sample (41_encoder.md R91). -/
def minSample (s : Block) : Byte := s.toList.foldl (fun m x => if x.toNat < m.toNat then x else m) 0xFF#8

/-- `hi`, the greatest sample (41_encoder.md R91). -/
def maxSample (s : Block) : Byte := s.toList.foldl (fun m x => if m.toNat < x.toNat then x else m) 0x00#8

/-- `ChooseMode(s, lo, hi)` (41_encoder.md R94, R95): 6-level only when its error is strictly smaller. -/
def chooseModeWith (r7 r5 : Nat) (s : Block) (lo hi : Byte) : CBlock :=
  let t8 := tableWith r7 r5 hi lo
  let idx8 := quantize t8 s
  let t6 := tableWith r7 r5 lo hi
  let idx6 := quantize t6 s
  if squaredError t6 s idx6 < squaredError t8 s idx8 then packBlock lo hi idx6 else packBlock hi lo idx8

/-- `EncodeBlock(s)` (41_encoder.md R96). -/
def encodeBlockWith (r7 r5 : Nat) (s : Block) : CBlock :=
  let lo := minSample s
  let hi := maxSample s
  if lo = hi then packBlock lo lo (Vector.replicate 16 0) else chooseModeWith r7 r5 s lo hi

/-! ### The block's own parameters (00_scope.md R4) -/

/-- `Table(A, B)` with the block's rounding. -/
def table (a b : Byte) : Table := tableWith Config.r7 Config.r5 a b

/-- `DecodeBlock(c)` with the block's rounding. -/
def decodeBlock (cb : CBlock) : Block := decodeBlockWith Config.r7 Config.r5 cb

/-- `EncodeBlock(s)` with the block's rounding. -/
def encodeBlock (s : Block) : CBlock := encodeBlockWith Config.r7 Config.r5 s

end Sys2Proof.Machine
end

