-- ==== Sys2Proof/Machine/Decoder.lean ====
section
/-! DEFINITION. DEC (spec/42_decoder.md R100). -/

namespace Sys2Proof.Machine

/-- The decoder with its quality, which is resolved and otherwise unused (42_decoder.md R100, 40_options.md R84). -/
def decodeWithQuality (_quality : Word) (cb : CBlock) : Block := decodeBlock cb

/-- DEC h (42_decoder.md R100): `BLK <- DecodeBlock(CB)`; a stale handle raises `ST_ERR_INVALIDPTR`. -/
def execDec (h : Nat) (s : State) : Result :=
  match resolveOptions h s with
  | none => raiseInvalidPtr h s
  | some q => returnOk { s with blk := decodeWithQuality q s.cb }

end Sys2Proof.Machine
end

