-- ==== Sys2Proof/Machine/Encoder.lean ====
section
/-! DEFINITION. ENC (spec/41_encoder.md R90). -/

namespace Sys2Proof.Machine

/-- The encoder with its quality, which is threaded through and used by nothing (40_options.md R84). -/
def encodeWithQuality (_quality : Word) (s : Block) : CBlock := encodeBlock s

/-- ENC h (41_encoder.md R90): `CB <- EncodeBlock(BLK)`; a stale handle raises `ST_ERR_INVALIDPTR`. -/
def execEnc (h : Nat) (s : State) : Result :=
  match resolveOptions h s with
  | none => raiseInvalidPtr h s
  | some q => returnOk { s with cb := encodeWithQuality q s.blk }

end Sys2Proof.Machine
end

