-- ==== Sys2Proof/Machine/Options.lean ====
section
/-! DEFINITION. The option commands OPT_CREATE, OPT_DESTROY, OPT_SETQ (spec/40_options.md R80 to R82). -/

namespace Sys2Proof.Machine

/-- The least `k` with `OPT[k].valid = 0` (40_options.md R80). -/
def leastFree (opts : List OptSlot) : Option Nat := opts.findIdx? fun o => !o.valid

/-- OPT_CREATE (40_options.md R80): the least free slot becomes valid with the default quality and RESULT its handle;
with no free slot RESULT becomes the null handle and STATUS `ST_ERR_NEWMEM`. -/
def execOptCreate (s : State) : Result :=
  match leastFree s.opts with
  | none => raise Config.stErrNewMem { s with result := 0#32 }
  | some k =>
    returnOk { s with opts := s.opts.set k ⟨true, Config.defaultQuality⟩, result := BitVec.ofNat 32 (k + 1) }

/-- OPT_DESTROY h (40_options.md R81): a live slot becomes free with quality 0. -/
def execOptDestroy (h : Nat) (s : State) : Result :=
  if isLive h s then returnOk { s with opts := s.opts.set (h - 1) OptSlot.free }
  else raiseInvalidPtr h s

/-- OPT_SETQ h (40_options.md R82): a live slot's quality becomes `ClampQ(ARG)`. -/
def execOptSetq (h : Nat) (s : State) : Result :=
  if isLive h s then returnOk { s with opts := s.opts.set (h - 1) ⟨true, clampQ s.arg⟩ }
  else raiseInvalidPtr h s

end Sys2Proof.Machine
end

