-- ==== Sys2Proof/Machine/Dispatch.lean ====
section
/-! DEFINITION. One arm per command (spec/30_encoding.md R52). -/

namespace Sys2Proof.Machine

def exec (i : Instr) (s : State) : Host.Outcome State Fault Refusal :=
  match i with
  | .optCreate => Sys2Proof.Machine.execOptCreate s
  | .optDestroy h => Sys2Proof.Machine.execOptDestroy h s
  | .optSetq h => Sys2Proof.Machine.execOptSetq h s
  | .ext1 => Sys2Proof.Machine.execExt1 s
  | .ext4 => Sys2Proof.Machine.execExt4 s
  | .ldcb => Sys2Proof.Machine.execLdcb s
  | .enc h => Sys2Proof.Machine.execEnc h s
  | .dec h => Sys2Proof.Machine.execDec h s
  | .stcb => Sys2Proof.Machine.execStcb s
  | .stb1 => Sys2Proof.Machine.execStb1 s
  | .stb4 => Sys2Proof.Machine.execStb4 s

end Sys2Proof.Machine
end

