-- ==== Sys2Proof/Machine/HostPort.lean ====
section
/-! DEFINITION. The host port: the register map, host reads and writes, the command register, the host's own memory
accesses and RESET (spec/10_state.md R12, R18, R22, R23, spec/70_reset_and_hazards.md R140, R141, R153). -/

namespace Sys2Proof.Machine

/-- The registers of the map (10_state.md R22). -/
inductive Reg where
  | cmd
  | status
  | result
  | arg
  | srcAddr
  | srcStride
  | dstAddr
  | optv
  | blkw (n : Fin 4)
  | cbw (n : Fin 2)
  | optq (k : Nat)
  | reserved
  deriving DecidableEq, Repr

/-- The register at an offset, for `nOpt` slots (10_state.md R22). -/
def regAt (nOpt offset : Nat) : Reg :=
  match offset with
  | 0x00 => .cmd
  | 0x04 => .status
  | 0x08 => .result
  | 0x0C => .arg
  | 0x10 => .srcAddr
  | 0x14 => .srcStride
  | 0x18 => .dstAddr
  | 0x1C => .optv
  | 0x20 => .blkw 0
  | 0x24 => .blkw 1
  | 0x28 => .blkw 2
  | 0x2C => .blkw 3
  | 0x30 => .cbw 0
  | 0x34 => .cbw 1
  | _ =>
    if 0x400 ≤ offset ∧ offset % 4 = 0 ∧ (offset - 0x400) / 4 < nOpt then .optq ((offset - 0x400) / 4) else .reserved

/-- The register at an offset of this block's map. -/
def State.regAt (s : State) (offset : Nat) : Reg := Machine.regAt s.opts.length offset

/-- Only aligned 32-bit accesses are defined (10_state.md R22). -/
def accessOk (width : AccessWidth) (offset : Nat) : Bool := decide (width = .word) && decide (offset % 4 = 0)

/-- Four byte registers as a 32-bit word, the lowest-numbered one in bits 7:0 (10_state.md R12). -/
def lanes (b0 b1 b2 b3 : Byte) : Word := b3 ++ b2 ++ b1 ++ b0

/-- Byte `k` of a word (10_state.md R12). -/
def lane (w : Word) (k : Nat) : Byte := w.extractLsb' (8 * k) 8

/-- `BLKWn` (10_state.md R12). -/
def blkWord (b : Block) (n : Fin 4) : Word :=
  lanes (b[4 * n.val]) (b[4 * n.val + 1]) (b[4 * n.val + 2]) (b[4 * n.val + 3])

/-- `CBWn` (10_state.md R12). -/
def cbWord (cb : CBlock) (n : Fin 2) : Word :=
  lanes (cb[4 * n.val]) (cb[4 * n.val + 1]) (cb[4 * n.val + 2]) (cb[4 * n.val + 3])

/-- A write of `BLKWn` replaces the four registers it covers (10_state.md R12). -/
def setBlkWord (b : Block) (n : Fin 4) (w : Word) : Block :=
  Vector.ofFn fun i => if i.val / 4 = n.val then lane w (i.val % 4) else b[i]

/-- A write of `CBWn` replaces the four registers it covers (10_state.md R12). -/
def setCbWord (cb : CBlock) (n : Fin 2) (w : Word) : CBlock :=
  Vector.ofFn fun j => if j.val / 4 = n.val then lane w (j.val % 4) else cb[j]

/-- What a host read of a register returns (10_state.md R12, R15 to R18, R22, R23). -/
def readReg (r : Reg) (s : State) : Word :=
  match r with
  | .cmd => 0#32
  | .status => s.status
  | .result => s.result
  | .arg => s.arg
  | .srcAddr => s.srcAddr
  | .srcStride => s.srcStride
  | .dstAddr => s.dstAddr
  | .optv => optvWord s.opts
  | .blkw n => blkWord s.blk n
  | .cbw n => cbWord s.cb n
  | .optq k => qualityOf (k + 1) s
  | .reserved => 0#32

/-- A word written to CMD executes the command it encodes, or raises `ST_FAIL` (10_state.md R18, 30_encoding.md R54). -/
def issue (w : Word) (s : State) : Result :=
  match decode w with
  | .ok i => exec i s
  | .error _ => raiseIllegal s

/-- A host write to a register: a write to CMD is a command, a writable register takes the value, every other write is
ignored (10_state.md R15 to R18, R22). -/
def writeReg (r : Reg) (v : Word) (s : State) : Result :=
  match r with
  | .cmd => issue v s
  | .arg => .next { s with arg := v }
  | .srcAddr => .next { s with srcAddr := v }
  | .srcStride => .next { s with srcStride := v }
  | .dstAddr => .next { s with dstAddr := v }
  | .blkw n => .next { s with blk := setBlkWord s.blk n v }
  | .cbw n => .next { s with cb := setCbWord s.cb n v }
  | .status | .result | .optv | .optq _ | .reserved => .next s

/-- The cells of `MW addr, bytes` (30_encoding.md R71), addresses modulo 2^32 (log 16). -/
def hostCells (addr : Word) (bytes : List Byte) : List StoreCell :=
  match bytes with
  | [] => []
  | b :: bs => (addr, b) :: hostCells (addr + 1#32) bs

/-- The addresses of `MR addr, n` (30_encoding.md R71), modulo 2^32 (log 16). -/
def hostAddrs (addr : Word) (n : Nat) : List Word :=
  match n with
  | 0 => []
  | n + 1 => addr :: hostAddrs (addr + 1#32) n

/-- A memory access of the host needs every address backed (log 8). -/
def onHostBacked (addrs : List Word) (s : State) (t : Result) : Result :=
  match s.firstUnbacked addrs with
  | some a => .fault (.unbackedHost a.toNat)
  | none => t

/-- What a storing command that reset cuts short leaves in memory: each cell is written or not by a free value
(70_reset_and_hazards.md R141, U15; log 10). -/
def tornCells (draw : Nat) (cells : List StoreCell) : List StoreCell :=
  cells.filter fun c => Config.tornByte draw c.1.toNat

/-- The cells that a word written to CMD stores. -/
def wordCells (w : Word) (s : State) : List StoreCell :=
  match decode w with
  | .ok i => storeCells i s
  | .error _ => []

/-- RESET arrives while the command `w` runs: the block is as after reset, the bytes the command writes are each
written or not (70_reset_and_hazards.md R141). The marks the command makes on the run stay (log 10); a command outside
the spec stops as it would have. -/
def resetCut (w : Word) (s : State) : Result :=
  match issue w s with
  | .next t =>
    .next (resetBlock
      { s with
        mem := s.mem.writeCells (tornCells s.draws (wordCells w s))
        staleUsed := t.staleUsed
        illegalUsed := t.illegalUsed
        draws := s.draws + 1 })
  | .fault r => .fault r
  | .refused r => .refused r

/-- One host operation (70_reset_and_hazards.md R153). -/
def hostStep (op : HostOp) (s : State) : Result :=
  match op with
  | .write width offset v =>
    if accessOk width offset then writeReg (s.regAt offset) v s else .refused (.hostAccess width offset)
  | .read width offset =>
    if accessOk width offset then .next { s with reads := s.reads ++ [.reg offset (readReg (s.regAt offset) s)] }
    else .refused (.hostAccess width offset)
  | .memWrite addr bytes =>
    onHostBacked ((hostCells addr bytes).map Prod.fst) s
      (.next { s with mem := s.mem.writeCells (hostCells addr bytes) })
  | .memRead addr n =>
    onHostBacked (hostAddrs addr n) s
      (.next { s with reads := s.reads ++ [.mem addr ((hostAddrs addr n).map s.readByte)] })
  | .reset => .next (resetBlock s)
  | .resetDuring w => resetCut w s

end Sys2Proof.Machine
end

