-- ==== Sys2Proof/Machine/Step.lean ====
section
/-! DEFINITION. One step: the next operation of the host (spec/10_state.md R19, spec/70_reset_and_hazards.md R143). -/

namespace Sys2Proof.Machine

/-- The first pending host operation is performed; with none pending the block is idle and holds its state
(60_exceptions.md R134). -/
def step (s : State) : Host.Outcome State Fault Refusal :=
  match s.host with
  | [] => .next s
  | op :: rest => hostStep op { s with host := rest }

/-- `s` with a write of the command word to CMD as the host's next operation (10_state.md R18, R19; log 4). -/
def State.withFetchWord (s : State) (nbits w : Nat) : State :=
  { s with host := .write .word 0x00 (BitVec.ofNat 32 (w % 2 ^ nbits)) :: s.host }

end Sys2Proof.Machine
end

