-- ==== Sys2Proof/Machine/Pseudo.lean ====
section
/-! DEFINITION. The host's notation as lists of host operations: `WR`, `RD`, the mnemonics, the pseudo-instructions
(spec/30_encoding.md R71, R72) and the tile driver's layout (spec/70_reset_and_hazards.md R146, R147). None of this is
state or behaviour of the block. -/

namespace Sys2Proof.Machine

/-- The offset of a register of the map (10_state.md R22). -/
def regOffset (r : Reg) : Nat :=
  match r with
  | .cmd => 0x00
  | .status => 0x04
  | .result => 0x08
  | .arg => 0x0C
  | .srcAddr => 0x10
  | .srcStride => 0x14
  | .dstAddr => 0x18
  | .optv => 0x1C
  | .blkw n => 0x20 + 4 * n.val
  | .cbw n => 0x30 + 4 * n.val
  | .optq k => 0x400 + 4 * k
  | .reserved => 0x38

/-- `WR <reg>, <value>` (30_encoding.md R71). -/
def wr (r : Reg) (v : Word) : HostOp := .write .word (regOffset r) v

/-- `RD <reg>` (30_encoding.md R71). -/
def rd (r : Reg) : HostOp := .read .word (regOffset r)

/-- `<mnemonic>` or `<mnemonic> <h>`: `WR CMD, word` (30_encoding.md R71). -/
def command (i : Instr) : HostOp := wr .cmd (encode i)

/-- `SETQ h, q` (30_encoding.md R72). -/
def pseudoSetq (h : Nat) (q : Word) : List HostOp := [wr .arg q, command (.optSetq h)]

/-- `COMPRESS1 h` (30_encoding.md R72). -/
def pseudoCompress1 (h : Nat) : List HostOp := [command .ext1, command (.enc h), command .stcb]

/-- `COMPRESS4 h` (30_encoding.md R72). -/
def pseudoCompress4 (h : Nat) : List HostOp := [command .ext4, command (.enc h), command .stcb]

/-- `DECOMPRESS1 h` (30_encoding.md R72). -/
def pseudoDecompress1 (h : Nat) : List HostOp := [command .ldcb, command (.dec h), command .stb1]

/-- `DECOMPRESS4 h` (30_encoding.md R72). -/
def pseudoDecompress4 (h : Nat) : List HostOp := [command .ldcb, command (.dec h), command .stb4]

/-- The destination offset of tile (x, y) of an image of width `w` (70_reset_and_hazards.md R146). -/
def tileDst (w x y : Nat) : Nat := x * 8 + y * (w / 4) * 8

/-- The source offset of tile (x, y) of an image with `w` bytes a row (43_block_io.md R105, derived there). -/
def tileSrc (w x y : Nat) : Nat := 4 * y * w + 4 * x

/-- The tiles the driver visits, row after row; partial tiles are skipped (70_reset_and_hazards.md R146, R147). -/
def tiles (w h : Nat) : List (Nat × Nat) :=
  (List.range (h / 4)).flatMap fun y => (List.range (w / 4)).map fun x => (x, y)

/-- The host operations that compress one tile of a single-channel image at `img` into `out`. -/
def compressTile (img out : Nat) (w : Nat) (handle : Nat) (tile : Nat × Nat) : List HostOp :=
  [wr .srcAddr (BitVec.ofNat 32 (img + tileSrc w tile.1 tile.2)),
   wr .dstAddr (BitVec.ofNat 32 (out + tileDst w tile.1 tile.2))] ++ pseudoCompress1 handle

/-- The tile driver for a single-channel image (70_reset_and_hazards.md R146). -/
def compressImage (img out : Nat) (w h : Nat) (handle : Nat) : List HostOp :=
  wr .srcStride (BitVec.ofNat 32 w) :: (tiles w h).flatMap (compressTile img out w handle)

end Sys2Proof.Machine
end

