-- ==== Sys2Proof/Safety.lean ====
section
/-! DEFINITION. What the claims are stated in: the invariant of the machine, a run that keeps the source's contract, and
the spec's own words for "nearest" and for the encoder's choice (spec/10_state.md R14, R16, R17,
spec/41_encoder.md R93 to R95, spec/60_exceptions.md R126). -/

namespace Sys2Proof.Safety

open Sys2Proof.Machine

/-! ### The invariant -/

/-- A slot holds a quality in [0.0, 1.0], and a free slot holds 0 (10_state.md R14). -/
def slotOk (o : OptSlot) : Prop := o.quality.toNat ≤ 0x3F800000 ∧ (o.valid = false → o.quality = 0#32)

/-- STATUS holds one of the four codes (10_state.md R16, 30_encoding.md R70). -/
def statusOk (w : Word) : Prop :=
  w = Config.stOk ∨ w = Config.stErrNewMem ∨ w = Config.stErrInvalidPtr ∨ w = Config.stFail

/-- What every step keeps: the slot invariant (10_state.md R14), the number of slots in its range (00_scope.md R4), a
legal STATUS (R16), RESULT null or a slot's handle (R17), and the canonical form of memory. -/
structure Inv (s : State) : Prop where
  slots : ∀ o ∈ s.opts, slotOk o
  slotCount : 1 ≤ s.opts.length ∧ s.opts.length ≤ 255
  status : statusOk s.status
  result : s.result.toNat ≤ s.opts.length
  memory : s.mem.wf = true

/-! ### Runs that keep the source's contract (60_exceptions.md R126, 93_implementation_defined.md U2, U10) -/

/-- No stale handle and no illegal word has been used. -/
def contractKept (s : State) : Bool := !s.staleUsed && !s.illegalUsed

/-- A run of `n` steps is safe when it neither faults nor is refused and keeps the contract. -/
def SafeRun (n : Nat) (s : State) : Prop :=
  match n with
  | 0 => contractKept s = true
  | n + 1 => ∃ t, step s = .next t ∧ SafeRun n t

/-! ### The spec's words for the encoder -/

/-- `i` is `Nearest(T, x)`: "the least i in 0..7 such that |x − T[i]| ≤ |x − T[j]| for every j in 0..7"
(41_encoder.md R93). -/
def IsNearest (t : Table) (x : Byte) (i : Code) : Prop :=
  (∀ j : Code, absDiff x (t[i]) ≤ absDiff x (t[j])) ∧
    ∀ i' : Code, (∀ j : Code, absDiff x (t[i']) ≤ absDiff x (t[j])) → i ≤ i'

/-- `lo = min over i of s[i]` (41_encoder.md R91). -/
def IsLeastSample (s : Block) (lo : Byte) : Prop := (∃ i : Fin 16, s[i] = lo) ∧ ∀ i : Fin 16, lo.toNat ≤ (s[i]).toNat

/-- `hi = max over i of s[i]` (41_encoder.md R91). -/
def IsGreatestSample (s : Block) (hi : Byte) : Prop := (∃ i : Fin 16, s[i] = hi) ∧ ∀ i : Fin 16, (s[i]).toNat ≤ hi.toNat

/-- The sum over the samples of `(s[i] − T[idx[i]])^2`, in the integers (41_encoder.md R94). -/
def sumOfSquares (t : Table) (s : Block) (idx : Fin 16 → Code) : Int :=
  ∑ i : Fin 16, (((s[i]).toNat : Int) - ((t[idx i]).toNat : Int)) ^ 2

/-! ### Binary32 numbers (30_encoding.md R67; PRESUMED, log 22) -/

/-- The magnitude of a binary32 pattern as a multiple of 2^-149: biased exponent in bits 30:23, fraction in bits 22:0.
An infinity counts as 2^128, which is above every bound a claim compares it with. -/
def binary32Magnitude (w : Word) : Nat :=
  if w.toNat / 2 ^ 23 % 256 = 0 then w.toNat % 2 ^ 23
  else (2 ^ 23 + w.toNat % 2 ^ 23) * 2 ^ (w.toNat / 2 ^ 23 % 256 - 1)

/-- The number a binary32 pattern denotes, as a multiple of 2^-149; the sign is bit 31. -/
def binary32Scaled (w : Word) : Int :=
  if w.getLsbD 31 then -(binary32Magnitude w : Int) else (binary32Magnitude w : Int)

/-- The pattern denotes no number. -/
def isNaN (w : Word) : Prop := w.toNat / 2 ^ 23 % 256 = 255 ∧ w.toNat % 2 ^ 23 ≠ 0

/-! ### Handles and states that differ in qualities alone -/

/-- The two states differ in the qualities of their slots alone (40_options.md R84). -/
def SameButQualities (s t : State) : Prop :=
  t = { s with opts := t.opts } ∧ s.opts.map OptSlot.valid = t.opts.map OptSlot.valid

/-- ENC and DEC accept the handle: it is null or live (40_options.md R83). -/
def Resolves (h : Nat) (s : State) : Prop := h = 0 ∨ isLive h s = true

/-- Every address the command accesses is backed (20_memory.md R36). -/
def AllBacked (i : Instr) (s : State) : Prop := ∀ a ∈ accessed i s, s.isBacked a = true

end Sys2Proof.Safety
end

