-- ==== Sys2Proof/Certificates/Slice0/Obligations.lean ====
section
/-! DEFINITION. The statements for the provers, from the numbered rules of spec/. Where a statement leaves a mark of the run
(`staleUsed`, `illegalUsed`, the model's own, log 6 and log 7) open, it says so by an existential over the mark. -/

open Sys2Proof Sys2Proof.Machine Sys2Proof.Safety

/-! ### Command words (30_encoding.md R50 to R54, R71; 10_state.md R18) -/

/-- Decoding an encoded well-formed command gives it back (30_encoding.md R50 to R52). -/
def Obligations.EncodedCommandDecodesBack : Prop :=
  ∀ i : Instr, i.wellFormed = true → decode (encode i) = .ok i

/-- A legal word is the encoding of the one command it decodes to, so no bit of it is dropped (30_encoding.md R50 to R52). -/
def Obligations.LegalWordIsTheEncodingOfItsCommand : Prop :=
  ∀ (w : Word) (i : Instr), decode w = .ok i → i.wellFormed = true ∧ encode i = w

/-- 30_encoding.md R54: a word is illegal exactly when bits 31:16 are not zero, or bits 7:0 are none of the eleven
opcodes, or the format is CMD-N and bits 15:8 are not zero; written to CMD, an illegal word puts ST_FAIL in STATUS and
changes nothing else, and every other word executes a command. The mark of the run is left open (log 7). -/
def Obligations.IllegalWordsRaiseFailAndChangeNothingElse : Prop :=
  ∀ (s : State) (w : Word) (rest : List HostOp), s.host = .write .word 0x00 w :: rest →
    let illegal : Prop :=
      w.toNat / 2 ^ 16 ≠ 0 ∨
      w.toNat % 256 ∉ [0x01, 0x02, 0x03, 0x10, 0x11, 0x12, 0x20, 0x21, 0x30, 0x31, 0x32] ∨
      (w.toNat % 256 ∈ [0x01, 0x10, 0x11, 0x12, 0x30, 0x31, 0x32] ∧ w.toNat / 256 % 256 ≠ 0)
    (illegal → ∃ mark, step s = .next { s with host := rest, status := 0xFFFFFFFF#32, illegalUsed := mark }) ∧
    (¬ illegal → ∃ i, decode w = .ok i ∧ step s = exec i { s with host := rest })

/-- The words the spec writes out decode to the commands it names (30_encoding.md R52, R71, 95_test_vectors.md B8). -/
def Obligations.WordsOfTheSpecDecode : Prop :=
  decode 0x00000001#32 = .ok .optCreate ∧ decode 0x00000102#32 = .ok (.optDestroy 1) ∧
  decode 0x0000FF03#32 = .ok (.optSetq 255) ∧ decode 0x00000010#32 = .ok .ext1 ∧
  decode 0x00000011#32 = .ok .ext4 ∧ decode 0x00000012#32 = .ok .ldcb ∧
  decode 0x00000120#32 = .ok (.enc 1) ∧ decode 0x00000021#32 = .ok (.dec 0) ∧
  decode 0x00000030#32 = .ok .stcb ∧ decode 0x00000031#32 = .ok .stb1 ∧ decode 0x00000032#32 = .ok .stb4 ∧
  decode 0x00000000#32 = .error .opcode ∧ decode 0x00000110#32 = .error .handleField ∧
  decode 0x00010020#32 = .error .zeroField

/-- 10_state.md R18: a host write of a legal word to CMD executes the command it encodes; the word is not stored, and a
read of CMD returns 0. The step takes the write off the host's list before it runs the command. -/
def Obligations.StepRunsTheDecodedCommand : Prop :=
  (∀ (s : State) (w : Word) (rest : List HostOp) (i : Instr),
    s.host = .write .word 0x00 w :: rest → decode w = .ok i → step s = exec i { s with host := rest }) ∧
  (∀ (s : State) (rest : List HostOp), s.host = .read .word 0x00 :: rest →
    step s = .next { s with host := rest, reads := s.reads ++ [.reg 0x00 0#32] })

/-! ### Option commands (40_options.md) -/

/-- 30_encoding.md R53: a handle is live when it names a slot of the block and the slot is valid; a non-zero handle that is
not live is stale. A handle that fits the command word is an 8-bit number. -/
def Obligations.LiveHandleNamesAValidSlot : Prop :=
  ∀ (h : Nat) (s : State),
    (isLive h s = true ↔ 1 ≤ h ∧ ∃ hk : h - 1 < s.opts.length, (s.opts[h - 1]).valid = true) ∧
    (isStale h s = true ↔ h ≠ 0 ∧ isLive h s = false) ∧ (handleFits h = true ↔ h < 2 ^ 8)

/-- 40_options.md R80: OPT_CREATE takes the least free slot, gives it the default quality and answers its handle, which
is not null; with no free slot it answers the null handle and ST_ERR_NEWMEM and no slot changes. -/
def Obligations.CreateTakesTheLeastFreeSlot : Prop :=
  encode .optCreate = 0x00000001#32 ∧
  ∀ s : State,
    (∀ (k : Nat) (hk : k < s.opts.length), (s.opts[k]).valid = false →
      (∀ (j : Nat) (hj : j < k), (s.opts[j]).valid = true) →
      exec .optCreate s = .next
        { s with opts := s.opts.set k ⟨true, 0x3F800000#32⟩, result := BitVec.ofNat 32 (k + 1), status := 0#32 }) ∧
    ((∀ o ∈ s.opts, o.valid = true) →
      exec .optCreate s = .next { s with result := 0#32, status := Config.stErrNewMem }) ∧
    (s.opts.length ≤ 255 → ∀ t, exec .optCreate s = .next t → t.status = 0#32 → t.result ≠ 0#32)

/-- 40_options.md R81: OPT_DESTROY frees a live slot with quality 0, after which the handle is stale; on any other handle
it answers ST_ERR_INVALIDPTR and changes nothing else. The mark of the run is left open (log 6). -/
def Obligations.DestroyFreesALiveSlot : Prop :=
  ∀ (h : Nat) (s : State),
    (h ≤ 255 → (encode (.optDestroy h)).toNat = h * 256 + 0x02) ∧
    (isLive h s = true →
      ∃ t, exec (.optDestroy h) s = .next t ∧
        t = { s with opts := s.opts.set (h - 1) ⟨false, 0#32⟩, status := 0#32 } ∧ isLive h t = false) ∧
    (isLive h s = false →
      ∃ mark, exec (.optDestroy h) s =
        .next { s with status := Config.stErrInvalidPtr, staleUsed := mark })

/-- 40_options.md R82: OPT_SETQ stores the clamped quality word of ARG in a live slot and leaves the slot live; on any
other handle it answers ST_ERR_INVALIDPTR and changes nothing else. The mark of the run is left open (log 6). -/
def Obligations.SetQualityStoresTheClampedWord : Prop :=
  ∀ (h : Nat) (s : State),
    (h ≤ 255 → (encode (.optSetq h)).toNat = h * 256 + 0x03) ∧
    (isLive h s = true →
      ∃ t, exec (.optSetq h) s = .next t ∧
        t = { s with opts := s.opts.set (h - 1) ⟨true, clampQ s.arg⟩, status := 0#32 } ∧ isLive h t = true) ∧
    (isLive h s = false →
      ∃ mark, exec (.optSetq h) s =
        .next { s with status := Config.stErrInvalidPtr, staleUsed := mark })

/-- 30_encoding.md R68: the three cases of `ClampQ`; for every pattern that denotes a number the clamped pattern denotes
that number clamped into [0.0, 1.0] (IEEE 754 binary32, log 22: numbers are multiples of 2^-149, so 1.0 is 2^149); the result is a pattern of
[0.0, 1.0], and clamping it again changes nothing. -/
def Obligations.ClampStaysInTheUnitRange : Prop :=
  ∀ w : Word,
    (2 ^ 31 ≤ w.toNat → clampQ w = 0x00000000#32) ∧
    (w.toNat < 2 ^ 31 → 0x3F800000 < w.toNat → clampQ w = 0x3F800000#32) ∧
    (w.toNat ≤ 0x3F800000 → clampQ w = w) ∧
    (¬ isNaN w → binary32Scaled (clampQ w) = max 0 (min (2 ^ 149) (binary32Scaled w))) ∧
    (clampQ w).toNat ≤ 0x3F800000 ∧ clampQ (clampQ w) = clampQ w

/-- 10_state.md R13, R25: a slot becomes valid by OPT_CREATE only, becomes free by OPT_DESTROY of its handle and by reset
only, and its quality changes by the three option commands and reset only; no other operation of the host reaches it. -/
def Obligations.SlotsChangeOnlyByOptionCommandsAndReset : Prop :=
  ∀ (s t : State) (k : Nat) (o o' : OptSlot),
    step s = .next t → s.opts[k]? = some o → t.opts[k]? = some o' →
    let runs : Instr → Prop := fun i => ∃ w rest, s.host = .write .word 0x00 w :: rest ∧ decode w = .ok i
    let resets : Prop := (∃ rest, s.host = .reset :: rest) ∨ ∃ w rest, s.host = .resetDuring w :: rest
    (o.valid = false → o'.valid = true → runs .optCreate) ∧
    (o.valid = true → o'.valid = false → runs (.optDestroy (k + 1)) ∨ resets) ∧
    (o.quality ≠ o'.quality →
      runs .optCreate ∨ runs (.optSetq (k + 1)) ∨ runs (.optDestroy (k + 1)) ∨ resets)

/-- A destroyed handle is handed out again: with every lower slot live, OPT_CREATE after OPT_DESTROY h answers h, and h is
live again (70_reset_and_hazards.md R148, 40_options.md R80, R81). -/
def Obligations.DestroyedHandleIsIssuedAgain : Prop :=
  ∀ (h : Nat) (s : State), isLive h s = true → h ≤ 255 → (∀ j, 1 ≤ j → j < h → isLive j s = true) →
    ∃ t u, exec (.optDestroy h) s = .next t ∧ exec .optCreate t = .next u ∧
      u.result.toNat = h ∧ isLive h u = true

/-! ### ENC and DEC (41_encoder.md R90, 42_decoder.md R100, 40_options.md R83, R84) -/

/-- 41_encoder.md R90: with the null or a live handle ENC writes `EncodeBlock(BLK)` to CB and ST_OK to STATUS, and nothing
else; with a stale handle it answers ST_ERR_INVALIDPTR and CB is unchanged. The mark of the run is left open (log 6). -/
def Obligations.EncWritesTheEncodedBlock : Prop :=
  ∀ (h : Nat) (s : State),
    (h ≤ 255 → (encode (.enc h)).toNat = h * 256 + 0x20) ∧
    (h = 0 ∨ isLive h s = true →
      exec (.enc h) s = .next { s with cb := encodeBlock s.blk, status := 0#32 }) ∧
    (h ≠ 0 → isLive h s = false →
      ∃ mark, exec (.enc h) s = .next { s with status := Config.stErrInvalidPtr, staleUsed := mark })

/-- 42_decoder.md R100: with the null or a live handle DEC writes to every `BLK[i]` the entry of `Table(CB[0], CB[1])` that
the i-th code of `UnpackIdx(CB[2..7])` selects, and ST_OK to STATUS, and nothing else; with a stale handle it answers
ST_ERR_INVALIDPTR and BLK is unchanged. The mark of the run is left open (log 6). -/
def Obligations.DecWritesTheDecodedBlock : Prop :=
  ∀ (h : Nat) (s : State),
    (h ≤ 255 → (encode (.dec h)).toNat = h * 256 + 0x21) ∧
    (h = 0 ∨ isLive h s = true →
      ∃ t, exec (.dec h) s = .next t ∧ t = { s with blk := t.blk, status := 0#32 } ∧
        ∀ i : Fin 16, t.blk[i] = (table (s.cb[0]) (s.cb[1]))[(unpackIdx s.cb)[i]]) ∧
    (h ≠ 0 → isLive h s = false →
      ∃ mark, exec (.dec h) s = .next { s with status := Config.stErrInvalidPtr, staleUsed := mark })

/-- 40_options.md R84: for one BLK, ENC writes the same CB whatever null or live handle it is given and whatever the
qualities of the slots are; for one CB, DEC writes the same BLK. -/
def Obligations.CodecOutputIgnoresTheOptions : Prop :=
  ∀ (h h' : Nat) (s s' t t' : State),
    (h = 0 ∨ isLive h s = true) → (h' = 0 ∨ isLive h' s' = true) →
    (s.blk = s'.blk → exec (.enc h) s = .next t → exec (.enc h') s' = .next t' → t.cb = t'.cb) ∧
    (s.cb = s'.cb → exec (.dec h) s = .next t → exec (.dec h') s' = .next t' → t.blk = t'.blk)

/-- No command lets the stored qualities reach anything but the qualities: from two states that differ in them alone, a
command that completes in one completes in the other, and the results differ in the qualities alone (40_options.md R84). -/
def Obligations.QualitiesReachNothingElse : Prop :=
  ∀ (i : Instr) (s s' t : State), SameButQualities s s' → exec i s = .next t →
    ∃ t', exec i s' = .next t' ∧ SameButQualities t t'

/-! ### The compressed block and its table (30_encoding.md R57 to R66) -/

/-- `PackIdx` and `UnpackIdx` are inverse to each other, in both directions (30_encoding.md R57). -/
def Obligations.IndexFieldPackingIsABijection : Prop :=
  (∀ (a b : Byte) (idx : Codes), unpackIdx (packBlock a b idx) = idx) ∧
  (∀ bytes : CBlock, packBlock (bytes[0]) (bytes[1]) (unpackIdx bytes) = bytes)

/-- 30_encoding.md R59: bit b of code i is bit 3*i + b of the index field, which lies in byte 2 + (3*i + b) div 8 at bit
(3*i + b) mod 8, least significant first; the two endpoint bytes stand before it. -/
def Obligations.IndexBitsLieAsTabled : Prop :=
  ∀ (a b : Byte) (idx : Codes),
    (packBlock a b idx)[0] = a ∧ (packBlock a b idx)[1] = b ∧
    ∀ (i : Fin 16) (k : Nat) (hk : k < 3),
      ((packBlock a b idx)[2 + (3 * i.val + k) / 8]'(by omega)).getLsbD ((3 * i.val + k) % 8) =
        (idx[i]).val.testBit k

/-- 30_encoding.md R62, R63: the entries of the table by code, in both modes, as the spec computes them in the natural
numbers (R7 = 3, R5 = 2), and each as a level of R60. -/
def Obligations.TableEntriesAreTheRoundedBlends : Prop :=
  ∀ (a b : Byte) (i : Code),
    (b.toNat < a.toNat →
      (table a b)[0] = a ∧ (table a b)[1] = b ∧
      (2 ≤ i.val → ((table a b)[i]).toNat = ((8 - i.val) * a.toNat + (i.val - 1) * b.toNat + 3) / 7) ∧
      (2 ≤ i.val → ((table a b)[i]).toNat = level8 3 a.toNat b.toNat (8 - i.val)) ∧
      a.toNat = level8 3 a.toNat b.toNat 7 ∧ b.toNat = level8 3 a.toNat b.toNat 0) ∧
    (a.toNat ≤ b.toNat →
      (table a b)[0] = a ∧ (table a b)[1] = b ∧ (table a b)[6] = 0#8 ∧ (table a b)[7] = 255#8 ∧
      (2 ≤ i.val → i.val ≤ 5 →
        ((table a b)[i]).toNat = ((6 - i.val) * a.toNat + (i.val - 1) * b.toNat + 2) / 5) ∧
      (2 ≤ i.val → i.val ≤ 5 → ((table a b)[i]).toNat = level6 2 a.toNat b.toNat (i.val - 1)) ∧
      a.toNat = level6 2 a.toNat b.toNat 0 ∧ b.toNat = level6 2 a.toNat b.toNat 5)

/-- 30_encoding.md R64: (a) the levels rise from the smaller endpoint to the larger, (b) codes 0 and 1 are the endpoints,
(c) the table of equal endpoints, (d) the tables of the extreme endpoints, (e) a table with repeated entries. -/
def Obligations.TableFactsOfTheSpec : Prop :=
  (∀ (a b : Byte) (j k : Nat), j ≤ k →
    (b.toNat < a.toNat → k ≤ 7 →
      b.toNat ≤ level8 3 a.toNat b.toNat j ∧ level8 3 a.toNat b.toNat j ≤ level8 3 a.toNat b.toNat k ∧
        level8 3 a.toNat b.toNat k ≤ a.toNat) ∧
    (a.toNat ≤ b.toNat → k ≤ 5 →
      a.toNat ≤ level6 2 a.toNat b.toNat j ∧ level6 2 a.toNat b.toNat j ≤ level6 2 a.toNat b.toNat k ∧
        level6 2 a.toNat b.toNat k ≤ b.toNat)) ∧
  (∀ (a b : Byte) (i : Code), (b.toNat < a.toNat ∨ i.val ≤ 5) →
    min a.toNat b.toNat ≤ ((table a b)[i]).toNat ∧ ((table a b)[i]).toNat ≤ max a.toNat b.toNat) ∧
  (∀ a b : Byte, (table a b)[0] = a ∧ (table a b)[1] = b) ∧
  (∀ v : Byte, table v v = #v[v, v, v, v, v, v, 0#8, 255#8]) ∧
  table 255#8 0#8 = #v[255#8, 0#8, 219#8, 182#8, 146#8, 109#8, 73#8, 36#8] ∧
  table 0#8 255#8 = #v[0#8, 255#8, 51#8, 102#8, 153#8, 204#8, 0#8, 255#8] ∧
  table 1#8 0#8 = #v[1#8, 0#8, 1#8, 1#8, 1#8, 0#8, 0#8, 0#8]

/-- 42_decoder.md R103: the corner cases of the decoder. -/
def Obligations.DecoderCornerCases : Prop :=
  (∀ (v : Byte) (idx : Codes) (i : Fin 16),
    ((idx[i]).val ≤ 5 → (decodeBlock (packBlock v v idx))[i] = v) ∧
    (idx[i] = 6 → (decodeBlock (packBlock v v idx))[i] = 0#8) ∧
    (idx[i] = 7 → (decodeBlock (packBlock v v idx))[i] = 255#8)) ∧
  table 0#8 255#8 = #v[0#8, 255#8, 51#8, 102#8, 153#8, 204#8, 0#8, 255#8] ∧
  table 255#8 0#8 = #v[255#8, 0#8, 219#8, 182#8, 146#8, 109#8, 73#8, 36#8] ∧
  (∀ (b : Byte) (i : Code), b.toNat < 255 → (table (b + 1#8) b)[i] = b + 1#8 ∨ (table (b + 1#8) b)[i] = b) ∧
  table 1#8 0#8 = #v[1#8, 0#8, 1#8, 1#8, 1#8, 0#8, 0#8, 0#8] ∧
  decodeBlock (Vector.replicate 8 255#8) = Vector.replicate 16 255#8 ∧
  decodeBlock (Vector.replicate 8 0#8) = Vector.replicate 16 0#8

/-! ### The encoder (41_encoder.md R91 to R97) -/

/-- 41_encoder.md R91: the two endpoint bytes are the least and the greatest sample, in one order or the other. -/
def Obligations.EncoderEndpointsAreTheExtremes : Prop :=
  ∀ (s : Block) (lo hi : Byte), IsLeastSample s lo → IsGreatestSample s hi →
    ((encodeBlock s)[0] = lo ∧ (encodeBlock s)[1] = hi) ∨ ((encodeBlock s)[0] = hi ∧ (encodeBlock s)[1] = lo)

/-- 41_encoder.md R92: a flat block of value v encodes to `[v, v, 0, 0, 0, 0, 0, 0]`, which decodes to sixteen v. -/
def Obligations.FlatBlockIsExact : Prop :=
  ∀ v : Byte,
    encodeBlock (Vector.replicate 16 v) = #v[v, v, 0#8, 0#8, 0#8, 0#8, 0#8, 0#8] ∧
    modeOf v v = .six ∧
    decodeBlock (encodeBlock (Vector.replicate 16 v)) = Vector.replicate 16 v

/-- 41_encoder.md R93: the quantizer takes the least of the codes whose entries are nearest to the sample. -/
def Obligations.QuantizerTakesTheLeastNearestCode : Prop :=
  ∀ (t : Table) (x : Byte), IsNearest t x (nearest t x)

/-- 41_encoder.md R94, R95: with any codes that are nearest in the two candidate tables, the block is the 6-level candidate
when its sum of squared errors is strictly smaller, and the 8-level candidate otherwise; the stored order tells the mode. -/
def Obligations.EncoderChoosesTheBetterMode : Prop :=
  ∀ (s : Block) (lo hi : Byte) (idx8 idx6 : Fin 16 → Code),
    IsLeastSample s lo → IsGreatestSample s hi → lo.toNat < hi.toNat →
    (∀ i : Fin 16, IsNearest (table hi lo) (s[i]) (idx8 i)) →
    (∀ i : Fin 16, IsNearest (table lo hi) (s[i]) (idx6 i)) →
    (sumOfSquares (table lo hi) s idx6 < sumOfSquares (table hi lo) s idx8 →
      encodeBlock s = packBlock lo hi (Vector.ofFn idx6) ∧
        modeOf ((encodeBlock s)[0]) ((encodeBlock s)[1]) = .six) ∧
    (sumOfSquares (table hi lo) s idx8 ≤ sumOfSquares (table lo hi) s idx6 →
      encodeBlock s = packBlock hi lo (Vector.ofFn idx8) ∧
        modeOf ((encodeBlock s)[0]) ((encodeBlock s)[1]) = .eight)

/-- No other codes, in either order of the endpoints, have a smaller sum of squared errors than the block the encoder emits
(41_encoder.md R93 to R95: "minimizes quantization error"). -/
def Obligations.EncoderMinimisesTheSquaredError : Prop :=
  ∀ (s : Block) (lo hi : Byte) (idx : Fin 16 → Code), IsLeastSample s lo → IsGreatestSample s hi →
    let out := encodeBlock s
    let best := sumOfSquares (table (out[0]) (out[1])) s (fun i => (unpackIdx out)[i])
    best ≤ sumOfSquares (table lo hi) s idx ∧ best ≤ sumOfSquares (table hi lo) s idx

/-- 41_encoder.md R97(a), 42_decoder.md R102: every decoded sample of an encoded block lies between the block's least and
greatest sample. -/
def Obligations.RoundTripStaysBetweenTheExtremes : Prop :=
  ∀ (s : Block) (lo hi : Byte) (i : Fin 16), IsLeastSample s lo → IsGreatestSample s hi →
    lo.toNat ≤ ((decodeBlock (encodeBlock s))[i]).toNat ∧ ((decodeBlock (encodeBlock s))[i]).toNat ≤ hi.toNat

/-- 41_encoder.md R97(b), (d): samples equal to an extreme are reproduced exactly, and their codes are 0 and 1: in an 8-level
block 0 for the greatest and 1 for the least, in a 6-level block that is not flat 0 for the least and 1 for the greatest. -/
def Obligations.ExtremesAreReproducedExactly : Prop :=
  ∀ (s : Block) (lo hi : Byte) (i : Fin 16), IsLeastSample s lo → IsGreatestSample s hi →
    let out := encodeBlock s
    (s[i] = lo ∨ s[i] = hi → (decodeBlock out)[i] = s[i]) ∧
    ((out[1]).toNat < (out[0]).toNat →
      (s[i] = hi → (unpackIdx out)[i] = 0) ∧ (s[i] = lo → (unpackIdx out)[i] = 1)) ∧
    ((out[0]).toNat < (out[1]).toNat →
      (s[i] = lo → (unpackIdx out)[i] = 0) ∧ (s[i] = hi → (unpackIdx out)[i] = 1))

/-- 41_encoder.md R97(c): the encoder never emits code 6 or 7 in a 6-level block. -/
def Obligations.EncoderEmitsNoReservedCode : Prop :=
  ∀ (s : Block) (i : Fin 16), ((encodeBlock s)[0]).toNat ≤ ((encodeBlock s)[1]).toNat →
    ((unpackIdx (encodeBlock s))[i]).val ≤ 5

/-- 41_encoder.md R97(f): the output has equal endpoints exactly when the block is flat. -/
def Obligations.EqualEndpointsMeanAFlatBlock : Prop :=
  ∀ s : Block, (encodeBlock s)[0] = (encodeBlock s)[1] ↔ ∃ v, s = Vector.replicate 16 v

/-- 41_encoder.md R97(g): in an 8-level result each sample differs from its decoded value by at most
`ceil((hi − lo) / 14)`. -/
def Obligations.EightLevelErrorBound : Prop :=
  ∀ (s : Block) (i : Fin 16),
    let out := encodeBlock s
    (out[1]).toNat < (out[0]).toNat →
      absDiff (s[i]) ((decodeBlock out)[i]) ≤ ((out[0]).toNat - (out[1]).toNat + 13) / 14

/-! ### Loads and stores (43_block_io.md, 20_memory.md) -/

/-- 43_block_io.md R105: EXT1 loads `BLK[4*r + c]` from `(SRC_ADDR + r*SRC_STRIDE + c) mod 2^32`, sets ST_OK and changes
nothing else, for every stride, when the sixteen addresses are backed. -/
def Obligations.Ext1LoadsTheStridedBlock : Prop :=
  encode .ext1 = 0x00000010#32 ∧
  ∀ s : State,
    let addr : Nat → Nat → Word := fun r c => BitVec.ofNat 32 (s.srcAddr.toNat + r * s.srcStride.toNat + c)
    (∀ r c, r < 4 → c < 4 → s.isBacked (addr r c) = true) →
    ∃ t, exec .ext1 s = .next t ∧ t = { s with blk := t.blk, status := 0#32 } ∧
      ∀ (r c : Nat) (hr : r < 4) (hc : c < 4), t.blk[4 * r + c] = s.readByte (addr r c)

/-- 43_block_io.md R106: EXT4 loads `BLK[4*r + c]` from the R byte of texel c of row r, at
`(SRC_ADDR + r*SRC_STRIDE + 4*c) mod 2^32`, sets ST_OK and changes nothing else, when the sixteen addresses are backed. -/
def Obligations.Ext4LoadsTheRedChannel : Prop :=
  encode .ext4 = 0x00000011#32 ∧
  ∀ s : State,
    let addr : Nat → Nat → Word := fun r c => BitVec.ofNat 32 (s.srcAddr.toNat + r * s.srcStride.toNat + 4 * c + 0)
    (∀ r c, r < 4 → c < 4 → s.isBacked (addr r c) = true) →
    ∃ t, exec .ext4 s = .next t ∧ t = { s with blk := t.blk, status := 0#32 } ∧
      ∀ (r c : Nat) (hr : r < 4) (hc : c < 4), t.blk[4 * r + c] = s.readByte (addr r c)

/-- 43_block_io.md R108: LDCB loads `CB[j]` from `(SRC_ADDR + j) mod 2^32`, whatever SRC_STRIDE holds, sets ST_OK and
changes nothing else, when the eight addresses are backed. -/
def Obligations.LdcbLoadsTheCompressedBlock : Prop :=
  encode .ldcb = 0x00000012#32 ∧
  ∀ s : State,
    let addr : Nat → Word := fun j => BitVec.ofNat 32 (s.srcAddr.toNat + j)
    (∀ j, j < 8 → s.isBacked (addr j) = true) →
    ∃ t, exec .ldcb s = .next t ∧ t = { s with cb := t.cb, status := 0#32 } ∧
      ∀ (j : Nat) (hj : j < 8), t.cb[j] = s.readByte (addr j)

/-- 43_block_io.md R109: STCB stores `CB[j]` at `(DST_ADDR + j) mod 2^32`, sets ST_OK, leaves every other byte of memory and
every other register as it was, when the eight addresses are backed. -/
def Obligations.StcbStoresTheCompressedBlock : Prop :=
  encode .stcb = 0x00000030#32 ∧
  ∀ s : State, s.mem.wf = true →
    let addr : Nat → Word := fun j => BitVec.ofNat 32 (s.dstAddr.toNat + j)
    (∀ j, j < 8 → s.isBacked (addr j) = true) →
    ∃ t, exec .stcb s = .next t ∧ t = { s with mem := t.mem, status := 0#32 } ∧
      (∀ (j : Nat) (hj : j < 8), t.readByte (addr j) = s.cb[j]) ∧
      ∀ a : Word, (∀ j, j < 8 → a ≠ addr j) → t.readByte a = s.readByte a

/-- 43_block_io.md R110: STB1 stores `BLK[i]` at `(DST_ADDR + i) mod 2^32`, sets ST_OK, leaves every other byte of memory and
every other register as it was, when the sixteen addresses are backed. -/
def Obligations.Stb1StoresTheDenseBlock : Prop :=
  encode .stb1 = 0x00000031#32 ∧
  ∀ s : State, s.mem.wf = true →
    let addr : Nat → Word := fun i => BitVec.ofNat 32 (s.dstAddr.toNat + i)
    (∀ i, i < 16 → s.isBacked (addr i) = true) →
    ∃ t, exec .stb1 s = .next t ∧ t = { s with mem := t.mem, status := 0#32 } ∧
      (∀ (i : Nat) (hi : i < 16), t.readByte (addr i) = s.blk[i]) ∧
      ∀ a : Word, (∀ i, i < 16 → a ≠ addr i) → t.readByte a = s.readByte a

/-- 43_block_io.md R111: STB4 stores `BLK[i]` at `(DST_ADDR + 4*i + n) mod 2^32` for n = 0..3, sets ST_OK, leaves every other
byte of memory and every other register as it was, when the 64 addresses are backed. -/
def Obligations.Stb4StoresTheReplicatedBlock : Prop :=
  encode .stb4 = 0x00000032#32 ∧
  ∀ s : State, s.mem.wf = true →
    let addr : Nat → Nat → Word := fun i n => BitVec.ofNat 32 (s.dstAddr.toNat + 4 * i + n)
    (∀ i n, i < 16 → n < 4 → s.isBacked (addr i n) = true) →
    ∃ t, exec .stb4 s = .next t ∧ t = { s with mem := t.mem, status := 0#32 } ∧
      (∀ (i n : Nat) (hi : i < 16), n < 4 → t.readByte (addr i n) = s.blk[i]) ∧
      ∀ a : Word, (∀ i n, i < 16 → n < 4 → a ≠ addr i n) → t.readByte a = s.readByte a

/-- What STB4 stored, EXT4 with SRC_ADDR at its destination and stride 16 reads back exactly: the corner case that
43_block_io.md derives for STB4. -/
def Obligations.ExtractUndoesTheReplicatedStore : Prop :=
  ∀ s t : State, s.mem.wf = true → exec .stb4 s = .next t →
    ∃ u, exec .ext4 { t with srcAddr := s.dstAddr, srcStride := 16#32 } = .next u ∧ u.blk = s.blk

/-- 20_memory.md R36: a command that accesses an unbacked address has no step, and faults at such an address; a command all
of whose addresses are backed completes. The fault's name and the address it gives are the model's (log 8). -/
def Obligations.CommandsCompleteExactlyOnBackedAddresses : Prop :=
  ∀ (i : Instr) (s : State),
    ((∀ a ∈ accessed i s, s.isBacked a = true) → ∃ t, exec i s = .next t) ∧
    ((∃ a ∈ accessed i s, s.isBacked a = false) →
      ∃ a ∈ accessed i s, s.isBacked a = false ∧ exec i s = .fault (.unbackedCommand a.toNat))

/-! ### Frames (10_state.md R26) -/

/-- What each command leaves unchanged (10_state.md R26): BLK but for EXT1, EXT4, DEC; CB but for LDCB, ENC; the slots but for
the option commands; RESULT but for OPT_CREATE; ARG, SRC_ADDR, SRC_STRIDE, DST_ADDR for every command; all of memory but
for STCB, STB1, STB4. The platform, the pending host operations and what the host has read stay too. -/
def Obligations.CommandsLeaveTheOtherRegisters : Prop :=
  ∀ (i : Instr) (s t : State), exec i s = .next t →
    (i ≠ .ext1 → i ≠ .ext4 → (∀ h, i ≠ .dec h) → t.blk = s.blk) ∧
    (i ≠ .ldcb → (∀ h, i ≠ .enc h) → t.cb = s.cb) ∧
    (i ≠ .optCreate → (∀ h, i ≠ .optDestroy h) → (∀ h, i ≠ .optSetq h) → t.opts = s.opts) ∧
    (i ≠ .optCreate → t.result = s.result) ∧
    t.arg = s.arg ∧ t.srcAddr = s.srcAddr ∧ t.srcStride = s.srcStride ∧ t.dstAddr = s.dstAddr ∧
    (i ≠ .stcb → i ≠ .stb1 → i ≠ .stb4 → ∀ a : Word, t.readByte a = s.readByte a) ∧
    t.backed = s.backed ∧ t.host = s.host ∧ t.reads = s.reads ∧ t.draws = s.draws ∧ t.illegalUsed = s.illegalUsed

/-- A storing command changes no byte of memory outside the addresses its own address pattern gives, and every byte it does
store is the one the pattern gives for that address (43_block_io.md R109 to R111, 10_state.md R26). -/
def Obligations.StoresChangeOnlyTheirOwnBytes : Prop :=
  ∀ (i : Instr) (s t : State), s.mem.wf = true → exec i s = .next t →
    (∀ a : Word, a ∉ (storeCells i s).map Prod.fst → t.readByte a = s.readByte a) ∧
    ∀ c ∈ storeCells i s, t.readByte c.1 = c.2

/-! ### Failures (60_exceptions.md) -/

/-- 60_exceptions.md R121: a command that ends with a status other than ST_OK changes STATUS, in the case of OPT_CREATE also
RESULT (to the null handle), and nothing else. The marks of the run are left open (log 6, log 7). -/
def Obligations.FailingCommandChangesOnlyStatus : Prop :=
  ∀ (w : Word) (s t : State), issue w s = .next t → t.status ≠ 0#32 →
    ∃ stale illegal,
      t = { s with
        status := t.status
        result := if decode w = .ok .optCreate then 0#32 else s.result
        staleUsed := stale
        illegalUsed := illegal }

/-- 60_exceptions.md R122: the exact condition of every status a word written to CMD can end with, and there are no others. -/
def Obligations.EveryStatusHasItsCause : Prop :=
  ∀ (w : Word) (s t : State), issue w s = .next t →
    (t.status = Config.stErrNewMem ↔ decode w = .ok .optCreate ∧ ∀ o ∈ s.opts, o.valid = true) ∧
    (t.status = Config.stErrNewMem → t.result = 0#32) ∧
    (t.status = Config.stErrInvalidPtr ↔
      ∃ h, isLive h s = false ∧
        (decode w = .ok (.optDestroy h) ∨ decode w = .ok (.optSetq h) ∨
          (h ≠ 0 ∧ (decode w = .ok (.enc h) ∨ decode w = .ok (.dec h))))) ∧
    (t.status = Config.stFail ↔ ∃ e, decode w = .error e) ∧
    (t.status = Config.stOk ∨ t.status = Config.stErrNewMem ∨ t.status = Config.stErrInvalidPtr ∨
      t.status = Config.stFail)

/-- A word written to CMD marks the run exactly when it is illegal, or is a command given a stale handle; no mark is ever
taken back by it (93_implementation_defined.md U2, U10; log 6, log 7: the marks are the model's). -/
def Obligations.MarksRecordContractBreaches : Prop :=
  ∀ (w : Word) (s t : State), issue w s = .next t →
    (t.staleUsed = true ↔ s.staleUsed = true ∨
      ∃ h, isStale h s = true ∧
        (decode w = .ok (.optDestroy h) ∨ decode w = .ok (.optSetq h) ∨ decode w = .ok (.enc h) ∨
          decode w = .ok (.dec h))) ∧
    (t.illegalUsed = true ↔ s.illegalUsed = true ∨ ∃ e, decode w = .error e)

/-! ### Whole-machine invariants -/

/-- The state after reset meets the invariant (10_state.md R14, R25). -/
def Obligations.ResetMeetsTheInvariant : Prop := Inv State.reset

/-- Every step keeps the invariant: the slots' qualities in [0.0, 1.0] with 0 in free slots (10_state.md R14), the number of
slots in its range, STATUS one of the four codes (R16), RESULT null or a slot's handle (R17), memory in its canonical
form (log 3). -/
def Obligations.StepKeepsTheInvariant : Prop :=
  ∀ s t : State, Inv s → step s = .next t → Inv t

/-- No step changes the platform: the number of slots and the backed addresses (00_scope.md R4); a step takes at most the
first operation off the host's list, and what the host has read is never lost (10_state.md R19, R40). -/
def Obligations.StepKeepsThePlatformAndTheOrder : Prop :=
  ∀ s t : State, step s = .next t →
    t.opts.length = s.opts.length ∧ t.backed = s.backed ∧ t.host = s.host.tail ∧ ∃ more, t.reads = s.reads ++ more

/-- Memory has one form: two canonical memories that read alike everywhere are equal (log 3). -/
def Obligations.CanonicalMemoriesThatReadAlikeAreEqual : Prop :=
  ∀ m m' : Memory, m.wf = true → m'.wf = true → (∀ a : Word, m.read a.toNat = m'.read a.toNat) → m = m'

/-! ### The host port and reset (10_state.md R12, R15 to R17, R22, R23, R25; 70_reset_and_hazards.md) -/

/-- 10_state.md R22: an aligned 32-bit host read returns the register the map gives for the offset and has no side effect. -/
def Obligations.HostReadReturnsTheMappedRegister : Prop :=
  ∀ (s : State) (offset : Nat) (rest : List HostOp), offset % 4 = 0 → s.host = .read .word offset :: rest →
    ∃ v, step s = .next { s with host := rest, reads := s.reads ++ [.reg offset v] } ∧
      (offset = 0x00 → v = 0#32) ∧ (offset = 0x04 → v = s.status) ∧ (offset = 0x08 → v = s.result) ∧
      (offset = 0x0C → v = s.arg) ∧ (offset = 0x10 → v = s.srcAddr) ∧ (offset = 0x14 → v = s.srcStride) ∧
      (offset = 0x18 → v = s.dstAddr) ∧ (offset = 0x1C → v = optvWord s.opts) ∧
      (∀ n : Fin 4, offset = 0x20 + 4 * n.val → v = blkWord s.blk n) ∧
      (∀ n : Fin 2, offset = 0x30 + 4 * n.val → v = cbWord s.cb n) ∧
      (offset = 0x38 ∨ offset = 0x3C → v = 0#32) ∧
      (∀ (k : Nat) (hk : k < s.opts.length), offset = 0x400 + 4 * k → v = (s.opts[k]).quality) ∧
      (0x40 ≤ offset → offset < 0x400 ∨ 0x400 + 4 * s.opts.length ≤ offset → v = 0#32)

/-- 10_state.md R22: an aligned 32-bit host write to a register other than CMD replaces that register's value where the map
says RW, and is ignored everywhere else. -/
def Obligations.HostWriteReplacesOnlyThatRegister : Prop :=
  ∀ (s : State) (offset : Nat) (v : Word) (rest : List HostOp), offset % 4 = 0 →
    s.host = .write .word offset v :: rest →
      (offset = 0x0C → step s = .next { s with host := rest, arg := v }) ∧
      (offset = 0x10 → step s = .next { s with host := rest, srcAddr := v }) ∧
      (offset = 0x14 → step s = .next { s with host := rest, srcStride := v }) ∧
      (offset = 0x18 → step s = .next { s with host := rest, dstAddr := v }) ∧
      (∀ n : Fin 4, offset = 0x20 + 4 * n.val →
        step s = .next { s with host := rest, blk := setBlkWord s.blk n v }) ∧
      (∀ n : Fin 2, offset = 0x30 + 4 * n.val →
        step s = .next { s with host := rest, cb := setCbWord s.cb n v }) ∧
      (offset = 0x04 ∨ offset = 0x08 ∨ offset = 0x1C ∨ 0x38 ≤ offset → step s = .next { s with host := rest })

/-- 10_state.md R12: byte k of `BLKWn` is `BLK[4n+k]` and byte k of `CBWn` is `CB[4n+k]`; a write of the word replaces those
four registers and no other, and reads back as written. -/
def Obligations.HostWindowsPackFourRegisters : Prop :=
  (∀ (b : Block) (n : Fin 4) (v : Word),
    (∀ (k : Nat) (hk : k < 4), (blkWord b n).extractLsb' (8 * k) 8 = b[4 * n.val + k]) ∧
    (∀ (k : Nat) (hk : k < 4), (setBlkWord b n v)[4 * n.val + k] = v.extractLsb' (8 * k) 8) ∧
    blkWord (setBlkWord b n v) n = v ∧
    ∀ i : Fin 16, i.val / 4 ≠ n.val → (setBlkWord b n v)[i] = b[i]) ∧
  (∀ (b : CBlock) (n : Fin 2) (v : Word),
    (∀ (k : Nat) (hk : k < 4), (cbWord b n).extractLsb' (8 * k) 8 = b[4 * n.val + k]) ∧
    (∀ (k : Nat) (hk : k < 4), (setCbWord b n v)[4 * n.val + k] = v.extractLsb' (8 * k) 8) ∧
    cbWord (setCbWord b n v) n = v ∧
    ∀ j : Fin 8, j.val / 4 ≠ n.val → (setCbWord b n v)[j] = b[j])

/-- 10_state.md R23: bit k of OPTV is the valid bit of slot k for the slots below 32, and 0 at and above N_OPT; OPTQ[k]
reads the quality of slot k. -/
def Obligations.OptvShowsTheValidBits : Prop :=
  ∀ (s : State) (k : Nat),
    (∀ hk : k < s.opts.length, k < 32 → (readReg .optv s).getLsbD k = (s.opts[k]).valid) ∧
    (s.opts.length ≤ k → (readReg .optv s).getLsbD k = false) ∧
    ∀ hk : k < s.opts.length, readReg (.optq k) s = (s.opts[k]).quality

/-- A host-port access that is not an aligned 32-bit one is refused (10_state.md R22, 93_implementation_defined.md U9). -/
def Obligations.OtherHostAccessesAreRefused : Prop :=
  ∀ (s : State) (width : AccessWidth) (offset : Nat) (v : Word) (rest : List HostOp),
    width ≠ .word ∨ offset % 4 ≠ 0 →
    s.host = .write width offset v :: rest ∨ s.host = .read width offset :: rest →
    step s = .refused (.hostAccess width offset)

/-- What the host stores in memory it reads back: `MW addr, bytes` and then `MR addr, n` for the same backed bytes returns
them, and every other byte is as it was (20_memory.md R40, 30_encoding.md R71). -/
def Obligations.HostMemoryReadsBackWhatItWrote : Prop :=
  ∀ (s : State) (addr : Word) (bytes : List Byte) (rest : List HostOp),
    s.mem.wf = true → bytes.length ≤ 2 ^ 32 →
    (∀ k, k < bytes.length → s.isBacked (addr + BitVec.ofNat 32 k) = true) →
    s.host = .memWrite addr bytes :: .memRead addr bytes.length :: rest →
    ∃ t, step s = .next t ∧
      step t = .next { t with host := rest, reads := s.reads ++ [.mem addr bytes] } ∧
      ∀ a : Word, (∀ k, k < bytes.length → a ≠ addr + BitVec.ofNat 32 k) → t.readByte a = s.readByte a

/-- 10_state.md R25: RESET puts every register at its reset value, frees every slot, so that no handle is live, and leaves
memory alone; the state after
reset has those values. The rest of `State.reset` is the model's choice (log 1 to log 5). -/
def Obligations.ResetPutsEveryRegisterAtItsValue : Prop :=
  let atReset : State → Prop := fun t =>
    (∀ i : Fin 16, t.blk[i] = 0x00#8) ∧ (∀ j : Fin 8, t.cb[j] = 0x00#8) ∧
    (∀ o ∈ t.opts, o.valid = false ∧ o.quality = 0x00000000#32) ∧ (∀ h : Nat, isLive h t = false) ∧
    t.arg = 0x00000000#32 ∧ t.srcAddr = 0x00000000#32 ∧ t.srcStride = 0x00000000#32 ∧ t.dstAddr = 0x00000000#32 ∧
    t.status = 0x00000000#32 ∧ t.result = 0x00000000#32
  atReset State.reset ∧
  ∀ (s : State) (rest : List HostOp), s.host = .reset :: rest →
    ∃ t, step s = .next t ∧ atReset t ∧ t.opts.length = s.opts.length ∧ t.mem = s.mem ∧ t.host = rest

/-- 70_reset_and_hazards.md R141: when RESET arrives during a command, the block is as after reset, and each byte of memory the
command writes is either written or not (a free value, log 10); every other byte is as it was. -/
def Obligations.ResetDuringACommandTearsItsStore : Prop :=
  ∀ (s : State) (w : Word) (rest : List HostOp), s.mem.wf = true → s.host = .resetDuring w :: rest →
    (∀ i, decode w = .ok i → ∀ a ∈ accessed i s, s.isBacked a = true) →
    ∃ t, step s = .next t ∧
      t.blk = Vector.replicate 16 0#8 ∧ t.cb = Vector.replicate 8 0#8 ∧
      t.opts = List.replicate s.opts.length ⟨false, 0#32⟩ ∧
      t.arg = 0#32 ∧ t.srcAddr = 0#32 ∧ t.srcStride = 0#32 ∧ t.dstAddr = 0#32 ∧ t.status = 0#32 ∧ t.result = 0#32 ∧
      ∀ a : Word, t.readByte a = s.readByte a ∨ ∃ i, decode w = .ok i ∧ (a, t.readByte a) ∈ storeCells i s

/-- 60_exceptions.md R134: with no host operation pending the block is idle and holds its state. -/
def Obligations.IdleBlockHoldsItsState : Prop :=
  ∀ s : State, s.host = [] → step s = .next s

/-! ### Pseudo-instructions (30_encoding.md R72, 43_block_io.md R112) -/

/-- `COMPRESS1 h` with the null or a live handle: three steps after which the eight bytes at DST_ADDR are
`EncodeBlock` of the sixteen samples that the strided source tile held, and every other byte is as it was
(30_encoding.md R72, 43_block_io.md R105, R109, R112, 41_encoder.md R90). -/
def Obligations.Compress1StoresTheEncodedTile : Prop :=
  ∀ (h : Nat) (s : State) (rest : List HostOp),
    s.mem.wf = true → h ≤ 255 → (h = 0 ∨ isLive h s = true) → s.host = pseudoCompress1 h ++ rest →
    (∀ i : Fin 16, s.isBacked (ext1Addr s i) = true) →
    (∀ j : Nat, j < 8 → s.isBacked (s.dstAddr + BitVec.ofNat 32 j) = true) →
    ∃ t u v, step s = .next t ∧ step t = .next u ∧ step u = .next v ∧ v.host = rest ∧ v.status = 0#32 ∧
      (∀ (j : Nat) (hj : j < 8), v.readByte (s.dstAddr + BitVec.ofNat 32 j) =
        (encodeBlock (Vector.ofFn fun i : Fin 16 => s.readByte (ext1Addr s i)))[j]) ∧
      ∀ a : Word, (∀ j, j < 8 → a ≠ s.dstAddr + BitVec.ofNat 32 j) → v.readByte a = s.readByte a

/-- `DECOMPRESS4 h` with the null or a live handle: three steps after which byte n of texel i at DST_ADDR is sample i of
`DecodeBlock` of the eight source bytes, for n = 0..3, and every other byte is as it was
(30_encoding.md R72, 43_block_io.md R108, R111, R112, 42_decoder.md R100). -/
def Obligations.Decompress4StoresTheDecodedTexels : Prop :=
  ∀ (h : Nat) (s : State) (rest : List HostOp),
    s.mem.wf = true → h ≤ 255 → (h = 0 ∨ isLive h s = true) → s.host = pseudoDecompress4 h ++ rest →
    (∀ j : Fin 8, s.isBacked (ldcbAddr s j) = true) →
    (∀ k : Nat, k < 64 → s.isBacked (s.dstAddr + BitVec.ofNat 32 k) = true) →
    ∃ t u v, step s = .next t ∧ step t = .next u ∧ step u = .next v ∧ v.host = rest ∧ v.status = 0#32 ∧
      (∀ (i n : Nat) (hi : i < 16), n < 4 → v.readByte (s.dstAddr + BitVec.ofNat 32 (4 * i + n)) =
        (decodeBlock (Vector.ofFn fun j : Fin 8 => s.readByte (ldcbAddr s j)))[i]) ∧
      ∀ a : Word, (∀ k, k < 64 → a ≠ s.dstAddr + BitVec.ofNat 32 k) → v.readByte a = s.readByte a
end

