-- ==== Sys2Proof/Laws/Codec.lean ====
section
/-! SUPPORT. The laws of the codec's functions: table entries fit a byte, the digits of the index field, the scan for the
nearest code, the least and greatest sample (spec/30_encoding.md R57, R62, R63, R66, spec/41_encoder.md R91, R93). -/

namespace Sys2Proof.Machine

open Sys2Proof.Safety

/-! ### The clamp (30_encoding.md R68) -/

/-- `ClampQ` by cases on the pattern read as an unsigned number. -/
theorem clampQ_eq (w : Word) :
    clampQ w =
      if 2 ^ 31 ≤ w.toNat then 0#32 else if 0x3F800000 < w.toNat then 0x3F800000#32 else w := by
  have hm : w.getLsbD 31 = decide (2 ^ 31 ≤ w.toNat) := by
    have := w.isLt
    rw [BitVec.getLsbD, Nat.testBit_eq_decide_div_mod_eq, decide_eq_decide]
    omega
  have he : (w.extractLsb' 0 31).toNat = w.toNat % 2 ^ 31 := by simp [BitVec.extractLsb'_toNat]
  unfold clampQ
  rw [hm, he]
  simp only [decide_eq_true_eq]
  split
  · rfl
  · rw [Nat.mod_eq_of_lt (by omega)]

theorem clampQ_le (w : Word) : (clampQ w).toNat ≤ 0x3F800000 := by
  rw [clampQ_eq]
  split
  · simp
  · split
    · simp
    · omega

/-! ### Digits -/

/-- Digit `i` of a number given by its digits, least significant first. -/
theorem digit_foldr {α : Type} (f : α → Nat) (b : Nat) (l : List α) (hf : ∀ x ∈ l, f x < b) (i : Nat)
    (hi : i < l.length) : l.foldr (fun c v => f c + b * v) 0 / b ^ i % b = f l[i] := by
  induction l generalizing i with
  | nil => simp at hi
  | cons x l ih =>
    have hx : f x < b := hf x (by simp)
    cases i with
    | zero => simp [Nat.add_mul_mod_self_left, Nat.mod_eq_of_lt hx]
    | succ i =>
      rw [List.foldr_cons, Nat.pow_succ', ← Nat.div_div_eq_div_mul, Nat.add_mul_div_left _ _ (by omega),
        Nat.div_eq_of_lt hx, Nat.zero_add]
      simpa using ih (fun y hy => hf y (by simp [hy])) i (by simpa using hi)

/-- A number given by `n` digits is below `b ^ n`. -/
theorem foldr_lt {α : Type} (f : α → Nat) (b : Nat) (l : List α) (hf : ∀ x ∈ l, f x < b) :
    l.foldr (fun c v => f c + b * v) 0 < b ^ l.length := by
  induction l with
  | nil => simp
  | cons x l ih =>
    have hx : f x < b := hf x (by simp)
    have hl := ih fun y hy => hf y (by simp [hy])
    rw [List.foldr_cons, List.length_cons, Nat.pow_succ']
    have hm := Nat.mul_le_mul_left b hl
    rw [Nat.mul_succ] at hm
    omega

/-- Numbers below `b ^ n` that agree on `n` digits are equal. -/
theorem eq_of_digits {b : Nat} (n x y : Nat) (hx : x < b ^ n) (hy : y < b ^ n)
    (h : ∀ i < n, x / b ^ i % b = y / b ^ i % b) : x = y := by
  induction n generalizing x y with
  | zero => simp at hx hy; omega
  | succ n ih =>
    have h0 : x % b = y % b := by simpa using h 0 (by omega)
    have hd : x / b = y / b := by
      refine ih _ _ (Nat.div_lt_of_lt_mul (by rwa [← Nat.pow_succ'])) (Nat.div_lt_of_lt_mul (by rwa [← Nat.pow_succ']))
        fun i hi => ?_
      rw [Nat.div_div_eq_div_mul, Nat.div_div_eq_div_mul, ← Nat.pow_succ']
      exact h (i + 1) (by omega)
    rw [← Nat.div_add_mod x b, ← Nat.div_add_mod y b, h0, hd]

theorem codesValue_digit (idx : Codes) (i : Nat) (hi : i < 16) :
    codesValue idx / 8 ^ i % 8 = (idx[i]).val := by
  have h := digit_foldr (fun c : Code => c.val) 8 idx.toList (fun c _ => c.isLt) i (by simpa using hi)
  simpa [codesValue] using h

theorem codesValue_lt (idx : Codes) : codesValue idx < 8 ^ 16 := by
  have h := foldr_lt (fun c : Code => c.val) 8 idx.toList (fun c _ => c.isLt)
  simpa [codesValue] using h

theorem bytesValue_digit (l : List Byte) (i : Nat) (hi : i < l.length) :
    bytesValue l / 256 ^ i % 256 = (l[i]).toNat :=
  digit_foldr (fun b : Byte => b.toNat) 256 l (fun b _ => b.isLt) i hi

theorem bytesValue_lt (l : List Byte) : bytesValue l < 256 ^ l.length :=
  foldr_lt (fun b : Byte => b.toNat) 256 l fun b _ => b.isLt

/-! ### Access to what `ofFn` builds -/

theorem packBlock_zero (a b : Byte) (idx : Codes) : (packBlock a b idx)[0] = a := by simp [packBlock]

theorem packBlock_one (a b : Byte) (idx : Codes) : (packBlock a b idx)[1] = b := by simp [packBlock]

theorem packBlock_index (a b : Byte) (idx : Codes) (j : Nat) (hj : j < 6) :
    (packBlock a b idx)[j + 2] = indexByte (codesValue idx) j := by simp [packBlock]

theorem indexByte_toNat (v j : Nat) : (indexByte v j).toNat = v / 256 ^ j % 256 := by
  simp [indexByte, Nat.pow_mul]

theorem unpackIdx_getElem (cb : CBlock) (i : Nat) (hi : i < 16) :
    (unpackIdx cb)[i] = Fin.ofNat 8 (bytesValue (cb.toList.drop 2) / 2 ^ (3 * i)) := by simp [unpackIdx]

/-- The index field of a packed block is the number its codes give (30_encoding.md R57). -/
theorem bytesValue_packBlock (a b : Byte) (idx : Codes) :
    bytesValue ((packBlock a b idx).toList.drop 2) = codesValue idx := by
  refine eq_of_digits (b := 256) 6 _ _ ?_ ?_ fun i hi => ?_
  · simpa using bytesValue_lt ((packBlock a b idx).toList.drop 2)
  · exact lt_of_lt_of_eq (codesValue_lt idx) (by norm_num)
  · rw [bytesValue_digit _ _ (by simpa using hi), ← indexByte_toNat]
    congr 1
    simpa [Nat.add_comm] using packBlock_index a b idx i hi

/-! ### Table entries (30_encoding.md R62, R63, R66) -/

theorem tableWith_getElem (r7 r5 : Nat) (a b : Byte) (i : Nat) (hi : i < 8) :
    (tableWith r7 r5 a b)[i] = BitVec.ofNat 8 (entryWith r7 r5 a b i) := by simp [tableWith]

/-- A blend of two bytes, with a bias below the divisor, fits a byte. -/
theorem blend_le {n x y a b r : Nat} (hxy : x + y = n) (ha : a ≤ 255) (hb : b ≤ 255) (hr : r < n) :
    (x * a + y * b + r) / n ≤ 255 := by
  have h1 : x * a ≤ x * 255 := Nat.mul_le_mul_left x ha
  have h2 : y * b ≤ y * 255 := Nat.mul_le_mul_left y hb
  have h3 : x * 255 + y * 255 = n * 255 := by rw [← Nat.add_mul, hxy]
  refine Nat.le_of_lt_succ (Nat.div_lt_of_lt_mul ?_)
  omega

/-- No table entry is narrowed (30_encoding.md R66). -/
theorem entryWith_le {r7 r5 : Nat} (h7 : r7 < 7) (h5 : r5 < 5) (a b : Byte) (i : Nat) (hi : i < 8) :
    entryWith r7 r5 a b i ≤ 255 := by
  have ha : a.toNat ≤ 255 := by have := a.isLt; omega
  have hb : b.toNat ≤ 255 := by have := b.isLt; omega
  unfold entryWith
  cases modeOf a b with
  | eight =>
    simp only [entry8]
    split
    · exact ha
    · exact hb
    · next h0 h1 =>
      refine blend_le (n := 7) ?_ ha hb h7
      simp only [imp_false] at h0 h1
      omega
  | six =>
    simp only [entry6]
    split
    · exact ha
    · exact hb
    · omega
    · omega
    · next h0 h1 h6 h7' =>
      refine blend_le (n := 5) ?_ ha hb h5
      simp only [imp_false] at h0 h1 h6 h7'
      omega

theorem table_toNat (a b : Byte) (i : Nat) (hi : i < 8) :
    ((table a b)[i]).toNat = entryWith Config.r7 Config.r5 a b i := by
  have h := entryWith_le (r7 := Config.r7) (r5 := Config.r5) (by decide) (by decide) a b i hi
  simp only [table, tableWith_getElem, BitVec.toNat_ofNat]
  omega

theorem modeOf_eight {a b : Byte} (h : b.toNat < a.toNat) : modeOf a b = .eight := by simp [modeOf, h]

theorem modeOf_six {a b : Byte} (h : a.toNat ≤ b.toNat) : modeOf a b = .six := by
  simp [modeOf, Nat.not_lt.2 h]

/-! ### The scan for the nearest code (41_encoder.md R93) -/

/-- A scan that moves only to strictly smaller values: its result is the start or an entry of the list, is at most both,
and the entries before it are greater. -/
theorem argmin_foldl {α : Type} (f : α → Nat) (l : List α) (b : α) :
    let r := l.foldl (fun best j => if f j < f best then j else best) b
    (f r ≤ f b ∧ ∀ j ∈ l, f r ≤ f j) ∧
      ((r = b ∧ ∀ j ∈ l, f b ≤ f j) ∨
        ∃ l1 l2, l = l1 ++ r :: l2 ∧ f r < f b ∧ ∀ j ∈ l1, f r < f j) := by
  induction l generalizing b with
  | nil => exact ⟨⟨le_rfl, by simp⟩, .inl ⟨rfl, by simp⟩⟩
  | cons x l ih =>
    simp only [List.foldl_cons, List.mem_cons, forall_eq_or_imp]
    by_cases hx : f x < f b
    · simp only [if_pos hx]
      obtain ⟨⟨h1, h2⟩, h3⟩ := ih x
      refine ⟨⟨h1.trans hx.le, h1, h2⟩, .inr ?_⟩
      rcases h3 with ⟨h3, h4⟩ | ⟨l1, l2, h3, h4, h5⟩
      · exact ⟨[], l, by rw [h3]; rfl, by rw [h3]; exact hx, by simp⟩
      · refine ⟨x :: l1, l2, by rw [List.cons_append, ← h3], h4.trans hx, ?_⟩
        simpa using ⟨h4, h5⟩
    · simp only [if_neg hx]
      obtain ⟨⟨h1, h2⟩, h3⟩ := ih b
      refine ⟨⟨h1, h1.trans (Nat.le_of_not_lt hx), h2⟩, ?_⟩
      rcases h3 with ⟨h3, h4⟩ | ⟨l1, l2, h3, h4, h5⟩
      · exact .inl ⟨h3, Nat.le_of_not_lt hx, h4⟩
      · refine .inr ⟨x :: l1, l2, by rw [List.cons_append, ← h3], h4, ?_⟩
        simpa using ⟨h4.trans_le (Nat.le_of_not_lt hx), h5⟩

/-- At most one code is the nearest. -/
theorem isNearest_unique {t : Table} {x : Byte} {i j : Code} (hi : IsNearest t x i) (hj : IsNearest t x j) :
    i = j :=
  Fin.le_antisymm (hi.2 j hj.1) (hj.2 i hi.1)

/-! ### Least and greatest sample (41_encoder.md R91) -/

theorem foldl_min (l : List Byte) (b : Byte) :
    let r := l.foldl (fun m x => if x.toNat < m.toNat then x else m) b
    (r = b ∨ r ∈ l) ∧ r.toNat ≤ b.toNat ∧ ∀ x ∈ l, r.toNat ≤ x.toNat := by
  induction l generalizing b with
  | nil => simp
  | cons y l ih =>
    simp only [List.foldl_cons, List.mem_cons, forall_eq_or_imp]
    by_cases hy : y.toNat < b.toNat
    · simp only [if_pos hy]
      obtain ⟨h1, h2, h3⟩ := ih y
      exact ⟨.inr (by tauto), h2.trans hy.le, h2, h3⟩
    · simp only [if_neg hy]
      obtain ⟨h1, h2, h3⟩ := ih b
      exact ⟨by tauto, h2, h2.trans (Nat.le_of_not_lt hy), h3⟩

theorem foldl_max (l : List Byte) (b : Byte) :
    let r := l.foldl (fun m x => if m.toNat < x.toNat then x else m) b
    (r = b ∨ r ∈ l) ∧ b.toNat ≤ r.toNat ∧ ∀ x ∈ l, x.toNat ≤ r.toNat := by
  induction l generalizing b with
  | nil => simp
  | cons y l ih =>
    simp only [List.foldl_cons, List.mem_cons, forall_eq_or_imp]
    by_cases hy : b.toNat < y.toNat
    · simp only [if_pos hy]
      obtain ⟨h1, h2, h3⟩ := ih y
      exact ⟨.inr (by tauto), hy.le.trans h2, h2, h3⟩
    · simp only [if_neg hy]
      obtain ⟨h1, h2, h3⟩ := ih b
      exact ⟨by tauto, h2, (Nat.le_of_not_lt hy).trans h2, h3⟩

theorem isLeastSample_unique {s : Block} {x y : Byte} (hx : IsLeastSample s x) (hy : IsLeastSample s y) : x = y := by
  obtain ⟨⟨i, rfl⟩, hx⟩ := hx
  obtain ⟨⟨j, rfl⟩, hy⟩ := hy
  exact BitVec.eq_of_toNat_eq (le_antisymm (hx j) (hy i))

theorem isGreatestSample_unique {s : Block} {x y : Byte} (hx : IsGreatestSample s x) (hy : IsGreatestSample s y) : x = y := by
  obtain ⟨⟨i, rfl⟩, hx⟩ := hx
  obtain ⟨⟨j, rfl⟩, hy⟩ := hy
  exact BitVec.eq_of_toNat_eq (le_antisymm (hy i) (hx j))

/-- `minSample` is the least sample. -/
theorem minSample_isLeast (s : Block) : IsLeastSample s (minSample s) := by
  obtain ⟨h1, -, h3⟩ := foldl_min s.toList 0xFF#8
  have hall : ∀ i : Fin 16, (minSample s).toNat ≤ (s[i]).toNat := fun i => h3 _ (by simp)
  refine ⟨?_, hall⟩
  rcases h1 with h1 | h1
  · refine ⟨0, BitVec.eq_of_toNat_eq ?_⟩
    have h0 := hall 0
    have : (minSample s).toNat = 255 := by rw [minSample, h1]; rfl
    have := (s[(0 : Fin 16)]).isLt
    omega
  · obtain ⟨i, hi, he⟩ := List.getElem_of_mem h1
    exact ⟨⟨i, by simpa using hi⟩, by simpa [minSample] using he⟩

/-- `maxSample` is the greatest sample. -/
theorem maxSample_isGreatest (s : Block) : IsGreatestSample s (maxSample s) := by
  obtain ⟨h1, -, h3⟩ := foldl_max s.toList 0x00#8
  have hall : ∀ i : Fin 16, (s[i]).toNat ≤ (maxSample s).toNat := fun i => h3 _ (by simp)
  refine ⟨?_, hall⟩
  rcases h1 with h1 | h1
  · refine ⟨0, BitVec.eq_of_toNat_eq ?_⟩
    have h0 := hall 0
    have : (maxSample s).toNat = 0 := by rw [maxSample, h1]; rfl
    omega
  · obtain ⟨i, hi, he⟩ := List.getElem_of_mem h1
    exact ⟨⟨i, by simpa using hi⟩, by simpa [maxSample] using he⟩

/-! ### The block's own functions -/

theorem decodeBlock_getElem (cb : CBlock) (i : Nat) (hi : i < 16) :
    (decodeBlock cb)[i] = (table (cb[0]) (cb[1]))[(unpackIdx cb)[i]] := by
  simp [decodeBlock, decodeBlockWith, table]

theorem quantize_getElem (t : Table) (s : Block) (i : Nat) (hi : i < 16) :
    (quantize t s)[i] = nearest t (s[i]) := by simp [quantize]

theorem encodeBlock_flat {s : Block} (h : minSample s = maxSample s) :
    encodeBlock s = packBlock (minSample s) (minSample s) (Vector.replicate 16 0) := by
  simp [encodeBlock, encodeBlockWith, h]

theorem encodeBlock_of_ne {s : Block} (h : minSample s ≠ maxSample s) :
    encodeBlock s =
      if squaredError (table (minSample s) (maxSample s)) s (quantize (table (minSample s) (maxSample s)) s) <
          squaredError (table (maxSample s) (minSample s)) s (quantize (table (maxSample s) (minSample s)) s) then
        packBlock (minSample s) (maxSample s) (quantize (table (minSample s) (maxSample s)) s)
      else packBlock (maxSample s) (minSample s) (quantize (table (maxSample s) (minSample s)) s) := by
  rw [encodeBlock, encodeBlockWith, if_neg h]
  rfl

/-! ### Levels and table entries (30_encoding.md R60, R62, R63) -/

/-- Level `k` of the 8-level mode as the smaller endpoint and a part of the distance. -/
theorem level8_eq {r7 a b k : Nat} (h : b ≤ a) (hk : k ≤ 7) :
    level8 r7 a b k = b + (k * (a - b) + r7) / 7 := by
  obtain ⟨d, rfl⟩ := Nat.exists_eq_add_of_le h
  obtain ⟨m, hm⟩ := Nat.exists_eq_add_of_le hk
  have : k * (b + d) + m * b = (k + m) * b + k * d := by ring
  rw [level8, Nat.add_sub_cancel_left, show 7 - k = m by omega, this, ← hm]
  omega

/-- Level `k` of the 6-level mode as the smaller endpoint and a part of the distance. -/
theorem level6_eq {r5 a b k : Nat} (h : a ≤ b) (hk : k ≤ 5) :
    level6 r5 a b k = a + (k * (b - a) + r5) / 5 := by
  obtain ⟨d, rfl⟩ := Nat.exists_eq_add_of_le h
  obtain ⟨m, hm⟩ := Nat.exists_eq_add_of_le hk
  have : m * a + k * (a + d) = (k + m) * a + k * d := by ring
  rw [level6, Nat.add_sub_cancel_left, show 5 - k = m by omega, this, ← hm]
  omega

/-- A code from 2 up takes level `8 - i` of the 8-level mode. -/
theorem entry8_eq_level8 {r7 a b i : Nat} (h2 : 2 ≤ i) (h7 : i ≤ 7) : entry8 r7 a b i = level8 r7 a b (8 - i) := by
  match i, h2 with
  | i + 2, _ => rw [entry8, level8, show 7 - (8 - (i + 2)) = i + 2 - 1 by omega] <;> omega

/-- A code from 2 to 5 takes level `i - 1` of the 6-level mode. -/
theorem entry6_eq_level6 {r5 a b i : Nat} (h2 : 2 ≤ i) (h5 : i ≤ 5) : entry6 r5 a b i = level6 r5 a b (i - 1) := by
  interval_cases i <;> rfl

/-! ### Distances (41_encoder.md R93, R94) -/

theorem absDiff_eq_zero {x y : Byte} : absDiff x y = 0 ↔ x = y := by
  constructor
  · intro h
    unfold absDiff at h
    exact BitVec.eq_of_toNat_eq (by omega)
  · rintro rfl
    simp [absDiff]

/-- The square of the distance, in the integers. -/
theorem absDiff_sq (x y : Byte) : ((absDiff x y : Nat) : Int) ^ 2 = ((x.toNat : Int) - y.toNat) ^ 2 := by
  have : ((absDiff x y : Nat) : Int) = |(x.toNat : Int) - y.toNat| := by
    rw [absDiff]
    rcases abs_cases ((x.toNat : Int) - y.toNat) with ⟨h, _⟩ | ⟨h, _⟩ <;> rw [h] <;> omega
  rw [this, sq_abs]

/-- The machine's sum of squared errors is the spec's. -/
theorem squaredError_eq (t : Table) (s : Block) (idx : Codes) :
    (squaredError t s idx : Int) = sumOfSquares t s (fun i => idx[i]) := by
  unfold squaredError sumOfSquares
  rw [← List.ofFn_eq_map, List.sum_ofFn]
  push_cast
  exact Finset.sum_congr rfl fun i _ => absDiff_sq _ _

end Sys2Proof.Machine
end

