-- ==== Sys2Proof/Laws/Decode.lean ====
section
/-! SUPPORT. The fields of a command word as numbers, and the decoder on a word given by its fields
(spec/30_encoding.md R50 to R52). -/

namespace Sys2Proof

theorem zeroField_toNat (w : Word) : (zeroField w).toNat = w.toNat / 2 ^ 16 := by
  have := w.isLt
  simp only [zeroField, BitVec.extractLsb'_toNat, Nat.shiftRight_eq_div_pow]
  omega

theorem zeroField_eq_zero (w : Word) : zeroField w = 0 ↔ w.toNat / 2 ^ 16 = 0 := by
  rw [← zeroField_toNat, ← BitVec.toNat_inj]
  rfl

theorem handleField_eq (w : Word) : handleField w = w.toNat / 256 % 256 := by
  simp [handleField, BitVec.extractLsb'_toNat, Nat.shiftRight_eq_div_pow]

theorem opcField_eq (w : Word) : opcField w = w.toNat % 256 := by
  simp [opcField, BitVec.extractLsb'_toNat]

theorem cmdWord_toNat {opc h : Nat} (ho : opc < 256) (hh : h ≤ 255) : (cmdWord opc h).toNat = h * 256 + opc := by
  simp only [cmdWord, BitVec.toNat_ofNat]
  omega

/-- The decoder on the word of an opcode and a handle. -/
theorem decode_cmdWord {opc h : Nat} (ho : opc < 256) (hh : h ≤ 255) :
    decode (cmdWord opc h) = decodeOpc opc h := by
  have h0 := cmdWord_toNat ho hh
  have hz : zeroField (cmdWord opc h) = 0 := (zeroField_eq_zero _).2 (by rw [h0]; omega)
  have h1 : handleField (cmdWord opc h) = h := by rw [handleField_eq, h0]; omega
  have h2 : opcField (cmdWord opc h) = opc := by rw [opcField_eq, h0]; omega
  rw [decode, if_pos hz, h1, h2]

/-- A word that decodes has a zero upper half and a legal opcode. -/
theorem decode_ok {w : Word} {i : Instr} (h : decode w = .ok i) :
    zeroField w = 0 ∧ decodeOpc (opcField w) (handleField w) = .ok i := by
  unfold decode at h
  split at h
  · exact ⟨‹_›, h⟩
  · cases h

/-- What the opcode map answers is encoded with the opcode and the handle it was read from. -/
theorem decodeOpc_ok {opc h : Nat} {i : Instr} (hd : decodeOpc opc h = .ok i) (hh : h ≤ 255) :
    encode i = cmdWord opc h ∧ i.wellFormed = true := by
  unfold decodeOpc noHandle at hd
  split at hd <;> (try split at hd) <;> cases hd <;> simp_all [encode, Instr.wellFormed, handleFits]

end Sys2Proof
end

