-- ==== Sys2Proof/Laws/Memory.lean ====
section
/-! SUPPORT. The laws of memory: a read after a write, and that every memory operation keeps the canonical form
(spec/20_memory.md R31, R37). -/

namespace Sys2Proof.Machine

@[simp] theorem Memory.read_nil (a : Nat) : Memory.read [] a = Config.unwrittenByte := rfl

theorem Memory.read_cell (b : Nat) (v : Byte) (m : Memory) (a : Nat) :
    Memory.read ((b, v) :: m) a = if a = b then v else Memory.read m a := rfl

@[simp] theorem Memory.wfFrom_nil (lo : Nat) : Memory.wfFrom lo [] = true := rfl

theorem Memory.wfFrom_cell (lo b : Nat) (v : Byte) (m : Memory) :
    Memory.wfFrom lo ((b, v) :: m) = true ↔
      lo ≤ b ∧ b < 2 ^ 32 ∧ v ≠ Config.unwrittenByte ∧ Memory.wfFrom (b + 1) m = true := by
  simp [Memory.wfFrom, and_assoc]

theorem Memory.wfFrom_mono {lo lo' : Nat} (h : lo' ≤ lo) {m : Memory} (hm : m.wfFrom lo = true) :
    m.wfFrom lo' = true := by
  cases m with
  | nil => rfl
  | cons c m =>
    rw [Memory.wfFrom_cell] at hm ⊢
    exact ⟨h.trans hm.1, hm.2⟩

/-- Below its lower bound a canonical memory lists nothing. -/
theorem Memory.read_below {lo : Nat} {m : Memory} (hm : m.wfFrom lo = true) {a : Nat} (ha : a < lo) :
    m.read a = Config.unwrittenByte := by
  induction m generalizing lo with
  | nil => rfl
  | cons c m ih =>
    obtain ⟨h1, -, -, h2⟩ := (Memory.wfFrom_cell ..).1 hm
    rw [Memory.read_cell, if_neg (by omega), ih h2 (by omega)]

theorem Memory.wfFrom_cons {lo a : Nat} {m : Memory} (v : Byte) (h1 : lo ≤ a) (h2 : a < 2 ^ 32)
    (hm : m.wfFrom (a + 1) = true) : (Memory.cons a v m).wfFrom lo = true := by
  unfold Memory.cons
  split
  · exact Memory.wfFrom_mono (by omega) hm
  · exact (Memory.wfFrom_cell ..).2 ⟨h1, h2, ‹_›, hm⟩

/-- A cell in front of a memory that lists nothing at its address reads as written, and changes nothing else. -/
theorem Memory.read_cons {a : Nat} {m : Memory} (v : Byte) (hm : m.wfFrom (a + 1) = true) (b : Nat) :
    (Memory.cons a v m).read b = if b = a then v else m.read b := by
  unfold Memory.cons
  split
  · next hv =>
    split
    · next hb => rw [hb, Memory.read_below hm (by omega), hv]
    · rfl
  · rfl

theorem Memory.write_wfFrom {lo a : Nat} {m : Memory} (v : Byte) (h1 : lo ≤ a) (h2 : a < 2 ^ 32)
    (hm : m.wfFrom lo = true) : (m.write a v).wfFrom lo = true := by
  induction m generalizing lo with
  | nil => exact Memory.wfFrom_cons v h1 h2 rfl
  | cons c m ih =>
    obtain ⟨hc1, hc2, hc3, hc4⟩ := (Memory.wfFrom_cell ..).1 hm
    simp only [Memory.write]
    split
    · next hlt =>
      exact Memory.wfFrom_cons v h1 h2 ((Memory.wfFrom_cell ..).2 ⟨hlt, hc2, hc3, hc4⟩)
    · split
      · next heq => exact Memory.wfFrom_cons v h1 h2 (heq ▸ hc4)
      · exact (Memory.wfFrom_cell ..).2 ⟨hc1, hc2, hc3, ih (by omega) hc4⟩

/-- A write keeps the canonical form. -/
theorem Memory.write_wf {m : Memory} (hm : m.wf = true) {a : Nat} (ha : a < 2 ^ 32) (v : Byte) :
    (m.write a v).wf = true :=
  Memory.write_wfFrom v (Nat.zero_le a) ha hm

theorem Memory.read_write_from {lo : Nat} {m : Memory} (hm : m.wfFrom lo = true) (a : Nat) (v : Byte) (b : Nat) :
    (m.write a v).read b = if b = a then v else m.read b := by
  induction m generalizing lo with
  | nil => exact Memory.read_cons v rfl b
  | cons c m ih =>
    obtain ⟨-, hc2, hc3, hc4⟩ := (Memory.wfFrom_cell ..).1 hm
    simp only [Memory.write]
    split
    · next hlt => exact Memory.read_cons v ((Memory.wfFrom_cell ..).2 ⟨hlt, hc2, hc3, hc4⟩) b
    · split
      · next heq =>
        rw [Memory.read_cons v (heq ▸ hc4), Memory.read_cell, heq]
        split <;> rfl
      · next hne =>
        rw [Memory.read_cell, Memory.read_cell, ih hc4]
        by_cases h1 : b = c.1
        · rw [if_pos h1, if_pos h1, if_neg (by omega)]
        · rw [if_neg h1, if_neg h1]

/-- A read after a write: the byte written at that address, and elsewhere what was there. -/
theorem Memory.read_write {m : Memory} (hm : m.wf = true) (a : Nat) (v : Byte) (b : Nat) :
    (m.write a v).read b = if b = a then v else m.read b :=
  Memory.read_write_from hm a v b

@[simp] theorem Memory.writeCells_nil (m : Memory) : m.writeCells [] = m := rfl

theorem Memory.writeCells_cons (m : Memory) (c : StoreCell) (cells : List StoreCell) :
    m.writeCells (c :: cells) = (m.write c.1.toNat c.2).writeCells cells := rfl

/-- Storing cells keeps the canonical form. -/
theorem Memory.writeCells_wf {m : Memory} (hm : m.wf = true) (cells : List StoreCell) :
    (m.writeCells cells).wf = true := by
  induction cells generalizing m with
  | nil => exact hm
  | cons c cells ih => exact ih (Memory.write_wf hm c.1.isLt c.2)

/-- A byte outside the stored addresses is unchanged. -/
theorem Memory.read_writeCells_other {m : Memory} (hm : m.wf = true) {cells : List StoreCell} {a : Word}
    (ha : a ∉ cells.map Prod.fst) : (m.writeCells cells).read a.toNat = m.read a.toNat := by
  induction cells generalizing m with
  | nil => rfl
  | cons c cells ih =>
    simp only [List.map_cons, List.mem_cons, not_or] at ha
    rw [Memory.writeCells_cons, ih (Memory.write_wf hm c.1.isLt c.2) ha.2, Memory.read_write hm,
      if_neg fun h => ha.1 (BitVec.eq_of_toNat_eq h)]

/-- A byte of the stored cells reads as stored, when no address is stored twice. -/
theorem Memory.read_writeCells_mem {m : Memory} (hm : m.wf = true) {cells : List StoreCell}
    (hnd : (cells.map Prod.fst).Nodup) {c : StoreCell} (hc : c ∈ cells) :
    (m.writeCells cells).read c.1.toNat = c.2 := by
  induction cells generalizing m with
  | nil => cases hc
  | cons d cells ih =>
    rw [List.map_cons, List.nodup_cons] at hnd
    rw [Memory.writeCells_cons]
    have hw := Memory.write_wf hm d.1.isLt d.2
    rcases List.mem_cons.1 hc with rfl | hc
    · rw [Memory.read_writeCells_other hw hnd.1, Memory.read_write hm, if_pos rfl]
    · exact ih hw hnd.2 hc

/-- After storing cells, every byte is what it was or one of the bytes stored there. -/
theorem Memory.read_writeCells_cases {m : Memory} (hm : m.wf = true) (cells : List StoreCell) (a : Word) :
    (m.writeCells cells).read a.toNat = m.read a.toNat ∨
      (a, (m.writeCells cells).read a.toNat) ∈ cells := by
  induction cells generalizing m with
  | nil => exact .inl rfl
  | cons c cells ih =>
    rw [Memory.writeCells_cons]
    rcases ih (Memory.write_wf hm c.1.isLt c.2) with h | h
    · by_cases ha : a = c.1
      · refine .inr (List.mem_cons.2 (.inl ?_))
        rw [h, Memory.read_write hm, if_pos (by rw [ha]), ha]
      · refine .inl ?_
        rw [h, Memory.read_write hm, if_neg fun e => ha (BitVec.eq_of_toNat_eq e)]
    · exact .inr (List.mem_cons_of_mem _ h)

end Sys2Proof.Machine
end

