-- ==== Sys2Proof/Laws/State.lean ====
section
/-! SUPPORT. Fields after the named updates of a state, one lemma per field, true by rfl. -/

namespace Sys2Proof.Machine

variable (s : State)

/-! ### `resetBlock` (spec/10_state.md R25) -/

@[simp] theorem resetBlock_blk : (resetBlock s).blk = Vector.replicate 16 0#8 := rfl
@[simp] theorem resetBlock_cb : (resetBlock s).cb = Vector.replicate 8 0#8 := rfl
@[simp] theorem resetBlock_opts : (resetBlock s).opts = List.replicate s.opts.length OptSlot.free := rfl
@[simp] theorem resetBlock_arg : (resetBlock s).arg = 0#32 := rfl
@[simp] theorem resetBlock_srcAddr : (resetBlock s).srcAddr = 0#32 := rfl
@[simp] theorem resetBlock_srcStride : (resetBlock s).srcStride = 0#32 := rfl
@[simp] theorem resetBlock_dstAddr : (resetBlock s).dstAddr = 0#32 := rfl
@[simp] theorem resetBlock_status : (resetBlock s).status = Config.stOk := rfl
@[simp] theorem resetBlock_result : (resetBlock s).result = 0#32 := rfl
@[simp] theorem resetBlock_mem : (resetBlock s).mem = s.mem := rfl
@[simp] theorem resetBlock_backed : (resetBlock s).backed = s.backed := rfl
@[simp] theorem resetBlock_host : (resetBlock s).host = s.host := rfl
@[simp] theorem resetBlock_reads : (resetBlock s).reads = s.reads := rfl
@[simp] theorem resetBlock_staleUsed : (resetBlock s).staleUsed = s.staleUsed := rfl
@[simp] theorem resetBlock_illegalUsed : (resetBlock s).illegalUsed = s.illegalUsed := rfl
@[simp] theorem resetBlock_draws : (resetBlock s).draws = s.draws := rfl

/-! ### `withFetchWord` -/

variable (nbits w : Nat)

@[simp] theorem withFetchWord_host :
    (s.withFetchWord nbits w).host = .write .word 0x00 (BitVec.ofNat 32 (w % 2 ^ nbits)) :: s.host := rfl
@[simp] theorem withFetchWord_blk : (s.withFetchWord nbits w).blk = s.blk := rfl
@[simp] theorem withFetchWord_cb : (s.withFetchWord nbits w).cb = s.cb := rfl
@[simp] theorem withFetchWord_opts : (s.withFetchWord nbits w).opts = s.opts := rfl
@[simp] theorem withFetchWord_mem : (s.withFetchWord nbits w).mem = s.mem := rfl

/-! ### What reads only part of a state -/

/-- A byte of memory depends on memory alone. -/
theorem readByte_eq (a : Word) : s.readByte a = s.mem.read a.toNat := rfl

/-- The step of a state with a pending operation performs it. -/
theorem step_cons {s : State} {op : HostOp} {rest : List HostOp} (h : s.host = op :: rest) :
    step s = hostStep op { s with host := rest } := by
  rw [step, h]

/-- The step of an idle block. -/
theorem step_nil {s : State} (h : s.host = []) : step s = .next s := by rw [step, h]

end Sys2Proof.Machine
end

