-- ==== Sys2Proof/Laws/Ops.lean ====
section
/-! SUPPORT. What each shared operation can do, said once: the backing check, the two endings of a command, the
resolution of a handle, the least free slot. -/

namespace Sys2Proof.Machine

/-! ### The backing check (spec/20_memory.md R36) -/

theorem firstUnbacked_none_iff {s : State} {addrs : List Word} :
    s.firstUnbacked addrs = none ↔ ∀ a ∈ addrs, s.isBacked a = true := by
  simp [State.firstUnbacked]

theorem firstUnbacked_some {s : State} {addrs : List Word} {a : Word} (h : s.firstUnbacked addrs = some a) :
    a ∈ addrs ∧ s.isBacked a = false := by
  have := List.find?_some h
  exact ⟨List.mem_of_find?_eq_some h, by simpa using this⟩

theorem onBacked_of_backed {addrs : List Word} {s : State} (h : ∀ a ∈ addrs, s.isBacked a = true) (t : Result) :
    onBacked addrs s t = t := by
  rw [onBacked, firstUnbacked_none_iff.2 h]

/-- What `onBacked` can do: the effect with every address backed, or a fault at an unbacked one. -/
theorem onBacked_cases (addrs : List Word) (s : State) (t : Result) :
    ((∀ a ∈ addrs, s.isBacked a = true) ∧ onBacked addrs s t = t) ∨
      ∃ a ∈ addrs, s.isBacked a = false ∧ onBacked addrs s t = .fault (.unbackedCommand a.toNat) := by
  cases h : s.firstUnbacked addrs with
  | none => exact .inl ⟨firstUnbacked_none_iff.1 h, onBacked_of_backed (firstUnbacked_none_iff.1 h) t⟩
  | some a =>
    obtain ⟨h1, h2⟩ := firstUnbacked_some h
    exact .inr ⟨a, h1, h2, by rw [onBacked, h]⟩

theorem onBacked_next {addrs : List Word} {s : State} {t : Result} {u : State}
    (h : onBacked addrs s t = .next u) : (∀ a ∈ addrs, s.isBacked a = true) ∧ t = .next u := by
  rcases onBacked_cases addrs s t with ⟨hb, ht⟩ | ⟨a, -, -, ht⟩
  · exact ⟨hb, ht ▸ h⟩
  · rw [ht] at h; cases h

theorem onHostBacked_of_backed {addrs : List Word} {s : State} (h : ∀ a ∈ addrs, s.isBacked a = true)
    (t : Result) : onHostBacked addrs s t = t := by
  rw [onHostBacked, firstUnbacked_none_iff.2 h]

theorem onHostBacked_next {addrs : List Word} {s : State} {t : Result} {u : State}
    (h : onHostBacked addrs s t = .next u) : (∀ a ∈ addrs, s.isBacked a = true) ∧ t = .next u := by
  unfold onHostBacked at h
  split at h
  · cases h
  · next hn => exact ⟨firstUnbacked_none_iff.1 hn, h⟩

/-! ### The endings of a command (spec/60_exceptions.md R120, R121) -/

theorem returnOk_next {s t : State} : returnOk s = .next t ↔ t = { s with status := Config.stOk } := by
  simp [returnOk, eq_comm]

theorem raise_next {c : Word} {s t : State} : raise c s = .next t ↔ t = { s with status := c } := by
  simp [raise, eq_comm]

/-! ### Handles (spec/30_encoding.md R53, spec/40_options.md R83) -/

@[simp] theorem isLive_zero (s : State) : isLive 0 s = false := rfl

theorem isLive_succ (k : Nat) (s : State) :
    isLive (k + 1) s = true ↔ ∃ o, s.opts[k]? = some o ∧ o.valid = true := by
  simp only [isLive]
  cases h : s.opts[k]? <;> simp

/-- A live handle names a valid slot. -/
theorem isLive_iff (h : Nat) (s : State) :
    isLive h s = true ↔ 1 ≤ h ∧ ∃ o, s.opts[h - 1]? = some o ∧ o.valid = true := by
  cases h with
  | zero => simp
  | succ k => simp [isLive_succ]

theorem isLive_congr {s t : State} (h : s.opts = t.opts) (k : Nat) : isLive k s = isLive k t := by
  cases k <;> simp [isLive, h]

/-- What `ResolveOptions` can answer. -/
theorem resolveOptions_none_iff (h : Nat) (s : State) :
    resolveOptions h s = none ↔ h ≠ 0 ∧ isLive h s = false := by
  unfold resolveOptions
  split <;> [skip; split] <;> simp_all

theorem resolveOptions_some_of {h : Nat} {s : State} (hr : h = 0 ∨ isLive h s = true) :
    ∃ q, resolveOptions h s = some q := by
  rcases hq : resolveOptions h s with _ | q
  · obtain ⟨h1, h2⟩ := (resolveOptions_none_iff h s).1 hq
    rcases hr with hr | hr
    · exact absurd hr h1
    · rw [h2] at hr; cases hr
  · exact ⟨q, rfl⟩

theorem isStale_iff (h : Nat) (s : State) : isStale h s = true ↔ h ≠ 0 ∧ isLive h s = false := by
  simp [isStale]

/-! ### Addresses (spec/20_memory.md R35) -/

/-- An address pattern as the spec writes it, in the natural numbers modulo 2^32. -/
theorem addrAt_eq (base stride : Word) (r o : Nat) :
    addrAt base stride r o = BitVec.ofNat 32 (base.toNat + r * stride.toNat + o) := by
  apply BitVec.eq_of_toNat_eq
  simp [addrAt, BitVec.toNat_add, BitVec.toNat_mul]

theorem add_ofNat (base : Word) (o : Nat) : base + BitVec.ofNat 32 o = BitVec.ofNat 32 (base.toNat + o) := by
  apply BitVec.eq_of_toNat_eq
  simp [BitVec.toNat_add]

end Sys2Proof.Machine
end

