-- ==== Sys2Proof/Laws/Exec.lean ====
section
/-! SUPPORT. What each command can do, said once: if it answers `next t`, then `t` is one of these states. -/

namespace Sys2Proof.Machine

/-! ### Option commands (spec/40_options.md) -/

theorem leastFree_none_iff {opts : List OptSlot} : leastFree opts = none ↔ ∀ o ∈ opts, o.valid = true := by
  simp [leastFree]

/-- The least free slot: it is free, and every slot below it is valid. -/
theorem leastFree_some_iff {opts : List OptSlot} {k : Nat} :
    leastFree opts = some k ↔
      ∃ h : k < opts.length, (opts[k]).valid = false ∧ ∀ j (hj : j < k), (opts[j]).valid = true := by
  simp [leastFree, List.findIdx?_eq_some_iff_getElem]

theorem execOptCreate_next {s t : State} (h : execOptCreate s = .next t) :
    (leastFree s.opts = none ∧ t = { s with result := 0#32, status := Config.stErrNewMem }) ∨
      ∃ k, leastFree s.opts = some k ∧
        t = { s with
          opts := s.opts.set k ⟨true, Config.defaultQuality⟩
          result := BitVec.ofNat 32 (k + 1)
          status := Config.stOk } := by
  unfold execOptCreate at h
  split at h
  · next hn => exact .inl ⟨hn, raise_next.1 h⟩
  · next k hk => exact .inr ⟨k, hk, returnOk_next.1 h⟩

theorem raiseInvalidPtr_next {h : Nat} {s t : State} (ht : raiseInvalidPtr h s = .next t) :
    t = { s with status := Config.stErrInvalidPtr, staleUsed := s.staleUsed || isStale h s } :=
  raise_next.1 ht

theorem execOptDestroy_next {h : Nat} {s t : State} (ht : execOptDestroy h s = .next t) :
    (isLive h s = true ∧ t = { s with opts := s.opts.set (h - 1) OptSlot.free, status := Config.stOk }) ∨
      (isLive h s = false ∧
        t = { s with status := Config.stErrInvalidPtr, staleUsed := s.staleUsed || isStale h s }) := by
  unfold execOptDestroy at ht
  split at ht
  · next hl => exact .inl ⟨hl, returnOk_next.1 ht⟩
  · next hl => exact .inr ⟨by simpa using hl, raiseInvalidPtr_next ht⟩

theorem execOptSetq_next {h : Nat} {s t : State} (ht : execOptSetq h s = .next t) :
    (isLive h s = true ∧ t = { s with opts := s.opts.set (h - 1) ⟨true, clampQ s.arg⟩, status := Config.stOk }) ∨
      (isLive h s = false ∧
        t = { s with status := Config.stErrInvalidPtr, staleUsed := s.staleUsed || isStale h s }) := by
  unfold execOptSetq at ht
  split at ht
  · next hl => exact .inl ⟨hl, returnOk_next.1 ht⟩
  · next hl => exact .inr ⟨by simpa using hl, raiseInvalidPtr_next ht⟩

/-! ### ENC and DEC (spec/41_encoder.md R90, spec/42_decoder.md R100) -/

theorem execEnc_next {h : Nat} {s t : State} (ht : execEnc h s = .next t) :
    ((h = 0 ∨ isLive h s = true) ∧ t = { s with cb := encodeBlock s.blk, status := Config.stOk }) ∨
      (isStale h s = true ∧ t = { s with status := Config.stErrInvalidPtr, staleUsed := true }) := by
  unfold execEnc at ht
  split at ht
  · next hn =>
    have hs := (isStale_iff h s).2 ((resolveOptions_none_iff h s).1 hn)
    refine .inr ⟨hs, ?_⟩
    rw [raiseInvalidPtr_next ht, hs, Bool.or_true]
  · next q hq =>
    refine .inl ⟨?_, returnOk_next.1 ht⟩
    by_contra hc
    rw [(resolveOptions_none_iff h s).2 (by simpa using hc)] at hq
    cases hq

theorem execDec_next {h : Nat} {s t : State} (ht : execDec h s = .next t) :
    ((h = 0 ∨ isLive h s = true) ∧ t = { s with blk := decodeBlock s.cb, status := Config.stOk }) ∨
      (isStale h s = true ∧ t = { s with status := Config.stErrInvalidPtr, staleUsed := true }) := by
  unfold execDec at ht
  split at ht
  · next hn =>
    have hs := (isStale_iff h s).2 ((resolveOptions_none_iff h s).1 hn)
    refine .inr ⟨hs, ?_⟩
    rw [raiseInvalidPtr_next ht, hs, Bool.or_true]
  · next q hq =>
    refine .inl ⟨?_, returnOk_next.1 ht⟩
    by_contra hc
    rw [(resolveOptions_none_iff h s).2 (by simpa using hc)] at hq
    cases hq

/-! ### Loads and stores (spec/43_block_io.md) -/

theorem execExt1_next {s t : State} (ht : execExt1 s = .next t) :
    (∀ a ∈ loadAddrs .ext1 s, s.isBacked a = true) ∧
      t = { s with blk := Vector.ofFn fun i => s.readByte (ext1Addr s i), status := Config.stOk } :=
  (onBacked_next ht).imp_right returnOk_next.1

theorem execExt4_next {s t : State} (ht : execExt4 s = .next t) :
    (∀ a ∈ loadAddrs .ext4 s, s.isBacked a = true) ∧
      t = { s with blk := Vector.ofFn fun i => s.readByte (ext4Addr s i), status := Config.stOk } :=
  (onBacked_next ht).imp_right returnOk_next.1

theorem execLdcb_next {s t : State} (ht : execLdcb s = .next t) :
    (∀ a ∈ loadAddrs .ldcb s, s.isBacked a = true) ∧
      t = { s with cb := Vector.ofFn fun j => s.readByte (ldcbAddr s j), status := Config.stOk } :=
  (onBacked_next ht).imp_right returnOk_next.1

theorem storeAll_next {cells : List StoreCell} {s t : State} (ht : storeAll cells s = .next t) :
    (∀ a ∈ cells.map Prod.fst, s.isBacked a = true) ∧
      t = { s with mem := s.mem.writeCells cells, status := Config.stOk } :=
  (onBacked_next ht).imp_right returnOk_next.1

theorem execStcb_next {s t : State} (ht : execStcb s = .next t) :
    (∀ a ∈ (stcbCells s).map Prod.fst, s.isBacked a = true) ∧
      t = { s with mem := s.mem.writeCells (stcbCells s), status := Config.stOk } := storeAll_next ht

theorem execStb1_next {s t : State} (ht : execStb1 s = .next t) :
    (∀ a ∈ (stb1Cells s).map Prod.fst, s.isBacked a = true) ∧
      t = { s with mem := s.mem.writeCells (stb1Cells s), status := Config.stOk } := storeAll_next ht

theorem execStb4_next {s t : State} (ht : execStb4 s = .next t) :
    (∀ a ∈ (stb4Cells s).map Prod.fst, s.isBacked a = true) ∧
      t = { s with mem := s.mem.writeCells (stb4Cells s), status := Config.stOk } := storeAll_next ht

/-- What a command can do to the slots (spec/10_state.md R13). -/
theorem exec_opts {i : Instr} {s t : State} (h : exec i s = .next t) :
    t.opts = s.opts ∨
      (i = .optCreate ∧ ∃ k, t.opts = s.opts.set k ⟨true, Config.defaultQuality⟩) ∨
      (∃ k, i = .optDestroy (k+1) ∧ t.opts = s.opts.set k OptSlot.free) ∨
      (∃ k, i = .optSetq (k+1) ∧ isLive (k+1) s = true ∧ t.opts = s.opts.set k ⟨true, clampQ s.arg⟩) := by
  cases i with
  | optCreate =>
    rcases execOptCreate_next h with ⟨-, rfl⟩ | ⟨k, -, rfl⟩
    · exact .inl rfl
    · exact .inr (.inl ⟨rfl, k, rfl⟩)
  | optDestroy h' =>
    rcases execOptDestroy_next h with ⟨hl, rfl⟩ | ⟨-, rfl⟩
    · cases h' with
      | zero => cases hl
      | succ k => exact .inr (.inr (.inl ⟨k, rfl, rfl⟩))
    · exact .inl rfl
  | optSetq h' =>
    rcases execOptSetq_next h with ⟨hl, rfl⟩ | ⟨-, rfl⟩
    · cases h' with
      | zero => cases hl
      | succ k => exact .inr (.inr (.inr ⟨k, rfl, hl, rfl⟩))
    · exact .inl rfl
  | ext1 => exact .inl (by rw [(execExt1_next h).2])
  | ext4 => exact .inl (by rw [(execExt4_next h).2])
  | ldcb => exact .inl (by rw [(execLdcb_next h).2])
  | enc h' => rcases execEnc_next h with ⟨-, rfl⟩ | ⟨-, rfl⟩ <;> exact .inl rfl
  | dec h' => rcases execDec_next h with ⟨-, rfl⟩ | ⟨-, rfl⟩ <;> exact .inl rfl
  | stcb => exact .inl (by rw [(execStcb_next h).2])
  | stb1 => exact .inl (by rw [(execStb1_next h).2])
  | stb4 => exact .inl (by rw [(execStb4_next h).2])

/-! ### The stored addresses are pairwise different (spec/20_memory.md R35) -/

theorem offsets_nodup (base : Word) {n : Nat} (hn : n ≤ 2 ^ 32) :
    ((List.finRange n).map fun k : Fin n => base + BitVec.ofNat 32 k.val).Nodup := by
  refine (List.nodup_finRange n).map fun i j h => Fin.ext ?_
  have h2 : BitVec.ofNat 32 i.val = BitVec.ofNat 32 j.val := by simpa using h
  have h3 := congrArg BitVec.toNat h2
  rwa [BitVec.toNat_ofNat, BitVec.toNat_ofNat, Nat.mod_eq_of_lt (by omega), Nat.mod_eq_of_lt (by omega)] at h3

theorem stcbCells_nodup (s : State) : ((stcbCells s).map Prod.fst).Nodup := by
  simpa [stcbCells, Function.comp_def] using offsets_nodup s.dstAddr (n := 8) (by norm_num)

theorem stb1Cells_nodup (s : State) : ((stb1Cells s).map Prod.fst).Nodup := by
  simpa [stb1Cells, Function.comp_def] using offsets_nodup s.dstAddr (n := 16) (by norm_num)

theorem stb4Cells_nodup (s : State) : ((stb4Cells s).map Prod.fst).Nodup := by
  simpa [stb4Cells, Function.comp_def] using offsets_nodup s.dstAddr (n := 64) (by norm_num)

/-- What a store does on backed addresses: it completes, the cells read as stored, every other byte as before. -/
theorem storeAll_ok {cells : List StoreCell} {s : State} (hw : s.mem.wf = true)
    (hnd : (cells.map Prod.fst).Nodup) (hb : ∀ a ∈ cells.map Prod.fst, s.isBacked a = true) :
    ∃ t, storeAll cells s = .next t ∧ t = { s with mem := t.mem, status := 0#32 } ∧
      (∀ c ∈ cells, t.readByte c.1 = c.2) ∧ ∀ a, a ∉ cells.map Prod.fst → t.readByte a = s.readByte a :=
  ⟨_, onBacked_of_backed hb _, rfl, fun _ hc => Memory.read_writeCells_mem hw hnd hc,
    fun _ ha => Memory.read_writeCells_other hw ha⟩

/-- Memory after a command is memory before it with the command's cells stored. -/
theorem exec_mem {i : Instr} {s t : State} (h : exec i s = .next t) :
    t.mem = s.mem.writeCells (storeCells i s) := by
  cases i with
  | optCreate => rcases execOptCreate_next h with ⟨-, rfl⟩ | ⟨k, -, rfl⟩ <;> rfl
  | optDestroy h' => rcases execOptDestroy_next h with ⟨-, rfl⟩ | ⟨-, rfl⟩ <;> rfl
  | optSetq h' => rcases execOptSetq_next h with ⟨-, rfl⟩ | ⟨-, rfl⟩ <;> rfl
  | enc h' => rcases execEnc_next h with ⟨-, rfl⟩ | ⟨-, rfl⟩ <;> rfl
  | dec h' => rcases execDec_next h with ⟨-, rfl⟩ | ⟨-, rfl⟩ <;> rfl
  | ext1 => obtain ⟨-, rfl⟩ := execExt1_next h; rfl
  | ext4 => obtain ⟨-, rfl⟩ := execExt4_next h; rfl
  | ldcb => obtain ⟨-, rfl⟩ := execLdcb_next h; rfl
  | stcb => obtain ⟨-, rfl⟩ := execStcb_next h; simp only [storeCells]
  | stb1 => obtain ⟨-, rfl⟩ := execStb1_next h; simp only [storeCells]
  | stb4 => obtain ⟨-, rfl⟩ := execStb4_next h; simp only [storeCells]

/-- No command stores to one address twice. -/
theorem storeCells_nodup (i : Instr) (s : State) : ((storeCells i s).map Prod.fst).Nodup := by
  cases i <;>
    first
      | exact List.nodup_nil
      | exact stcbCells_nodup s
      | exact stb1Cells_nodup s
      | exact stb4Cells_nodup s

/-- How a command can end: with ST_OK and its condition met, without a free slot, or at a handle that is not live. -/
theorem exec_status {i : Instr} {s t : State} (h : exec i s = .next t) :
    (t.status = Config.stOk ∧ t.staleUsed = s.staleUsed ∧ ¬ (i = .optCreate ∧ ∀ o ∈ s.opts, o.valid = true) ∧
      (∀ h', i = .optDestroy h' ∨ i = .optSetq h' → isLive h' s = true) ∧
      ∀ h', i = .enc h' ∨ i = .dec h' → h' = 0 ∨ isLive h' s = true) ∨
    (i = .optCreate ∧ (∀ o ∈ s.opts, o.valid = true) ∧
      t = { s with status := Config.stErrNewMem, result := 0#32 }) ∨
    ∃ h', isLive h' s = false ∧
      (i = .optDestroy h' ∨ i = .optSetq h' ∨ (h' ≠ 0 ∧ (i = .enc h' ∨ i = .dec h'))) ∧
      t = { s with status := Config.stErrInvalidPtr, staleUsed := s.staleUsed || isStale h' s } := by
  cases i with
  | optCreate =>
    rcases execOptCreate_next h with ⟨h1, rfl⟩ | ⟨k, h1, rfl⟩
    · exact .inr (.inl ⟨rfl, leastFree_none_iff.1 h1, rfl⟩)
    · refine .inl ⟨rfl, rfl, ?_, by simp, by simp⟩
      rintro ⟨-, h2⟩; rw [leastFree_none_iff.2 h2] at h1; cases h1
  | optDestroy h' =>
    rcases execOptDestroy_next h with ⟨h1, rfl⟩ | ⟨h1, rfl⟩
    · exact .inl ⟨rfl, rfl, by simp, by simp [h1], by simp⟩
    · exact .inr (.inr ⟨h', h1, by simp, rfl⟩)
  | optSetq h' =>
    rcases execOptSetq_next h with ⟨h1, rfl⟩ | ⟨h1, rfl⟩
    · exact .inl ⟨rfl, rfl, by simp, by simp [h1], by simp⟩
    · exact .inr (.inr ⟨h', h1, by simp, rfl⟩)
  | enc h' =>
    rcases execEnc_next h with ⟨h1, rfl⟩ | ⟨h1, rfl⟩
    · exact .inl ⟨rfl, rfl, by simp, by simp, by simpa using h1⟩
    · obtain ⟨h2, h3⟩ := (isStale_iff _ _).1 h1
      exact .inr (.inr ⟨h', h3, by simp [h2], by simp [h1]⟩)
  | dec h' =>
    rcases execDec_next h with ⟨h1, rfl⟩ | ⟨h1, rfl⟩
    · exact .inl ⟨rfl, rfl, by simp, by simp, by simpa using h1⟩
    · obtain ⟨h2, h3⟩ := (isStale_iff _ _).1 h1
      exact .inr (.inr ⟨h', h3, by simp [h2], by simp [h1]⟩)
  | ext1 => obtain ⟨-, rfl⟩ := execExt1_next h; exact .inl (by simp)
  | ext4 => obtain ⟨-, rfl⟩ := execExt4_next h; exact .inl (by simp)
  | ldcb => obtain ⟨-, rfl⟩ := execLdcb_next h; exact .inl (by simp)
  | stcb => obtain ⟨-, rfl⟩ := execStcb_next h; exact .inl (by simp)
  | stb1 => obtain ⟨-, rfl⟩ := execStb1_next h; exact .inl (by simp)
  | stb4 => obtain ⟨-, rfl⟩ := execStb4_next h; exact .inl (by simp)

/-! ### The host port (spec/10_state.md R22) -/

/-- What a word written to CMD does. -/
theorem issue_cases (w : Word) (s : State) :
    (∃ i, decode w = .ok i ∧ issue w s = exec i s) ∨ (∃ e, decode w = .error e ∧ issue w s = raiseIllegal s) := by
  unfold issue
  cases h : decode w with
  | ok i => exact .inl ⟨i, rfl, rfl⟩
  | error e => exact .inr ⟨e, rfl, rfl⟩

/-- Only offset 0 is CMD (spec/10_state.md R22). -/
theorem regAt_cmd {n off : Nat} (h : Machine.regAt n off = .cmd) : off = 0 := by
  unfold Machine.regAt at h
  split at h <;> first | rfl | (cases h) | skip
  split at h <;> cases h

/-- What a host write can do. -/
theorem writeReg_next {r : Reg} {v : Word} {s t : State} (h : writeReg r v s = .next t) :
    (r = .cmd ∧ issue v s = .next t) ∨
      ∃ blk cb arg src stride dst,
        t = { s with blk := blk, cb := cb, arg := arg, srcAddr := src, srcStride := stride, dstAddr := dst } := by
  cases r with
  | cmd => exact .inl ⟨rfl, h⟩
  | _ =>
    cases h
    exact .inr ⟨_, _, _, _, _, _, rfl⟩

/-- What one host operation can do. -/
theorem hostStep_next {op : HostOp} {s t : State} (h : hostStep op s = .next t) :
    (∃ w i, op = .write .word 0x00 w ∧ decode w = .ok i ∧ exec i s = .next t) ∨
    (∃ w e, op = .write .word 0x00 w ∧ decode w = .error e ∧ raiseIllegal s = .next t) ∨
    (∃ blk cb arg src stride dst,
        t = { s with blk := blk, cb := cb, arg := arg, srcAddr := src, srcStride := stride, dstAddr := dst }) ∨
    (∃ r, t = { s with reads := s.reads ++ [r] }) ∨
    (∃ cells, t = { s with mem := s.mem.writeCells cells }) ∨
    (op = .reset ∧ t = resetBlock s) ∨
    (∃ w, op = .resetDuring w ∧ resetCut w s = .next t) := by
  cases op with
  | write width off v =>
    simp only [hostStep] at h
    split at h
    · next hw =>
      simp only [accessOk, Bool.and_eq_true, decide_eq_true_eq] at hw
      obtain ⟨rfl, -⟩ := hw
      rcases writeReg_next h with ⟨hr, h⟩ | h
      · obtain rfl := regAt_cmd hr
        rcases issue_cases v s with ⟨i, h1, h2⟩ | ⟨e, h1, h2⟩
        · exact .inl ⟨v, i, rfl, h1, h2 ▸ h⟩
        · exact .inr (.inl ⟨v, e, rfl, h1, h2 ▸ h⟩)
      · exact .inr (.inr (.inl h))
    · cases h
  | read width off =>
    simp only [hostStep] at h
    split at h
    · cases h
      exact .inr (.inr (.inr (.inl ⟨_, rfl⟩)))
    · cases h
  | memWrite a b =>
    obtain ⟨-, h⟩ := onHostBacked_next h
    cases h
    exact .inr (.inr (.inr (.inr (.inl ⟨_, rfl⟩))))
  | memRead a n =>
    obtain ⟨-, h⟩ := onHostBacked_next h
    cases h
    exact .inr (.inr (.inr (.inl ⟨_, rfl⟩)))
  | reset =>
    cases h
    exact .inr (.inr (.inr (.inr (.inr (.inl ⟨rfl, rfl⟩)))))
  | resetDuring w => exact .inr (.inr (.inr (.inr (.inr (.inr ⟨w, rfl, h⟩)))))

/-- What a command that reset cuts short can do. -/
theorem resetCut_next {w : Word} {s u : State} (h : resetCut w s = .next u) :
    ∃ t, issue w s = .next t ∧
      u = resetBlock
        { s with
          mem := s.mem.writeCells (tornCells s.draws (wordCells w s))
          staleUsed := t.staleUsed
          illegalUsed := t.illegalUsed
          draws := s.draws + 1 } := by
  unfold resetCut at h
  split at h
  · next t ht => exact ⟨t, ht, by cases h; rfl⟩
  · cases h
  · cases h

end Sys2Proof.Machine
end

