-- ==== Sys2Proof/Laws/Host.lean ====
section
/-! SUPPORT. The laws of the host port: the register map by ranges, the lanes of a 32-bit window, the valid bits in OPTV,
the host's own memory accesses (spec/10_state.md R12, R22, R23, spec/30_encoding.md R71). -/

namespace Sys2Proof.Machine

/-! ### The register map (10_state.md R22) -/

theorem accessOk_word {offset : Nat} (h : offset % 4 = 0) : accessOk .word offset = true := by simp [accessOk, h]

/-- An aligned 32-bit read. -/
theorem hostStep_read {offset : Nat} (h : offset % 4 = 0) (s : State) :
    hostStep (.read .word offset) s =
      .next { s with reads := s.reads ++ [.reg offset (readReg (s.regAt offset) s)] } := by
  simp only [hostStep, accessOk_word h, if_true]

/-- An aligned 32-bit write. -/
theorem hostStep_write {offset : Nat} (h : offset % 4 = 0) (v : Word) (s : State) :
    hostStep (.write .word offset v) s = writeReg (s.regAt offset) v s := by
  simp only [hostStep, accessOk_word h, if_true]

/-- Above the CBW windows there are only the quality views and reserved offsets. -/
theorem regAt_high {n offset : Nat} (h : 0x38 ≤ offset) :
    Machine.regAt n offset =
      if 0x400 ≤ offset ∧ offset % 4 = 0 ∧ (offset - 0x400) / 4 < n then .optq ((offset - 0x400) / 4)
      else .reserved := by
  unfold Machine.regAt
  split <;> first | omega | rfl

/-! ### Windows (10_state.md R12) -/

/-- The bytes of a word put together from four. -/
theorem lane_lanes (b0 b1 b2 b3 : Byte) :
    lane (lanes b0 b1 b2 b3) 0 = b0 ∧ lane (lanes b0 b1 b2 b3) 1 = b1 ∧
      lane (lanes b0 b1 b2 b3) 2 = b2 ∧ lane (lanes b0 b1 b2 b3) 3 = b3 := by
  refine ⟨?_, ?_, ?_, ?_⟩ <;>
  · refine BitVec.eq_of_getLsbD_eq fun i hi => ?_
    simp only [lane, lanes, BitVec.getLsbD_extractLsb', BitVec.getLsbD_append, hi, decide_true, Bool.true_and,
      Nat.mul_zero, Nat.zero_add]
    try simp only [show ¬ (8 * 1 + i < 8) by omega, show ¬ (8 * 2 + i < 8) by omega,
      show ¬ (8 * 3 + i < 8) by omega, if_false, show 8 * 1 + i - 8 = i by omega,
      show 8 * 2 + i - 8 = 8 * 1 + i by omega, show 8 * 3 + i - 8 = 8 * 2 + i by omega, hi, if_true]

/-- A word put together from its own bytes. -/
theorem lanes_lane (w : Word) : lanes (lane w 0) (lane w 1) (lane w 2) (lane w 3) = w := by
  refine BitVec.eq_of_getLsbD_eq fun i hi => ?_
  simp only [lanes, lane, BitVec.getLsbD_append, BitVec.getLsbD_extractLsb']
  split
  · next h => simp [h]
  split
  · next h1 h => simp [h]; congr 1; omega
  split
  · next h1 h2 h => simp [h]; congr 1; omega
  · next h1 h2 h => simp [show i - 8 - 8 - 8 < 8 by omega]; congr 1; omega

/-! ### OPTV (10_state.md R23) -/

theorem validBits_testBit (l : List OptSlot) (k : Nat) :
    (validBits l).testBit k = (l[k]?.map OptSlot.valid).getD false := by
  induction l generalizing k with
  | nil => simp [validBits]
  | cons o l ih =>
    cases k with
    | zero => cases h : o.valid <;> simp [validBits, h, Nat.testBit_zero]
    | succ k =>
      have : (o.valid.toNat + 2 * validBits l) / 2 = validBits l := by cases o.valid <;> simp; omega
      rw [Nat.testBit_succ, validBits, this, ih]
      simp

/-! ### The host's own memory accesses (30_encoding.md R71) -/

theorem hostCells_eq (addr : Word) (bytes : List Byte) :
    hostCells addr bytes =
      (List.finRange bytes.length).map fun k : Fin bytes.length => (addr + BitVec.ofNat 32 k.val, bytes[k]) := by
  induction bytes generalizing addr with
  | nil => rfl
  | cons b bs ih =>
    simp only [hostCells, ih, List.length_cons, List.finRange_succ, List.map_cons, List.map_map, Fin.val_zero,
      List.cons.injEq]
    refine ⟨by simp, List.map_congr_left fun k _ => ?_⟩
    simp only [Function.comp, Fin.val_succ, BitVec.ofNat_add]
    exact Prod.ext (by rw [BitVec.add_assoc, BitVec.add_comm (1#32)]) rfl

theorem hostAddrs_eq (addr : Word) (n : Nat) :
    hostAddrs addr n = (List.finRange n).map fun k : Fin n => addr + BitVec.ofNat 32 k.val := by
  induction n generalizing addr with
  | zero => rfl
  | succ n ih =>
    simp only [hostAddrs, ih, List.finRange_succ, List.map_cons, List.map_map, Fin.val_zero, List.cons.injEq]
    refine ⟨by simp, List.map_congr_left fun k _ => ?_⟩
    simp only [Function.comp, Fin.val_succ, BitVec.ofNat_add]
    rw [BitVec.add_assoc, BitVec.add_comm (1#32)]

end Sys2Proof.Machine
end

