-- ==== Sys2Proof/Laws/PerInstr.lean ====
section
/-! SUPPORT. Statements about every command as syntax, one lemma per command: the upper half of a command word is zero
(spec/30_encoding.md R50, R54). -/

namespace Sys2Proof.Laws.ZeroUpperHalf

/-- The word of the command has bits 31:16 zero, when its handle fits. -/
def Statement (i : Instr) : Prop := i.wellFormed = true → zeroField (encode i) = 0

/-- The word of an opcode and a handle that fits. -/
theorem cmdWord_zero {opc h : Nat} (ho : opc < 256) (hh : handleFits h = true) : zeroField (cmdWord opc h) = 0 := by
  have hh : h ≤ 255 := by simpa [handleFits] using hh
  rw [zeroField_eq_zero, cmdWord_toNat ho hh]
  omega

theorem optCreate : Statement .optCreate := fun _ => cmdWord_zero (by norm_num) rfl
theorem optDestroy (h : Nat) : Statement (.optDestroy h) := cmdWord_zero (by norm_num)
theorem optSetq (h : Nat) : Statement (.optSetq h) := cmdWord_zero (by norm_num)
theorem ext1 : Statement .ext1 := fun _ => cmdWord_zero (by norm_num) rfl
theorem ext4 : Statement .ext4 := fun _ => cmdWord_zero (by norm_num) rfl
theorem ldcb : Statement .ldcb := fun _ => cmdWord_zero (by norm_num) rfl
theorem enc (h : Nat) : Statement (.enc h) := cmdWord_zero (by norm_num)
theorem dec (h : Nat) : Statement (.dec h) := cmdWord_zero (by norm_num)
theorem stcb : Statement .stcb := fun _ => cmdWord_zero (by norm_num) rfl
theorem stb1 : Statement .stb1 := fun _ => cmdWord_zero (by norm_num) rfl
theorem stb4 : Statement .stb4 := fun _ => cmdWord_zero (by norm_num) rfl

end Sys2Proof.Laws.ZeroUpperHalf
end

