-- ==== Sys2Proof/Tests/Slice0.lean ====
section
/-! SUPPORT. Tests of one operation each, with results from the spec's own vectors (spec/95_test_vectors.md), and for each
obligation with hypotheses a witness: a concrete state and operands that meet all of them. -/

namespace Sys2Proof.Tests

open Sys2Proof.Machine Sys2Proof.Safety

/-! ### Helpers -/

/-- The result is a next state with the property. -/
def after (r : Result) (p : State → Bool) : Bool :=
  match r with
  | .next t => p t
  | .fault _ => false
  | .refused _ => false

/-- The state after reset with one register bank replaced. -/
def withBlk (b : Block) : State := { State.reset with blk := b }
def withCb (b : CBlock) : State := { State.reset with cb := b }
def withOpts (o : List OptSlot) : State := { State.reset with opts := o }

/-- Slot 0 live, slot 1 free (state "after V-OPT-9"), and both live (state "after V-OPT-2"). -/
def oneLive : State := withOpts [⟨true, 0x3F000000#32⟩, ⟨false, 0#32⟩]
def bothLive : State := withOpts [⟨true, 0x3F800000#32⟩, ⟨true, 0x3F800000#32⟩]

/-- Bytes at ascending addresses from `addr`. -/
def image (addr : Word) (bytes : List Byte) : Memory := Memory.writeCells [] (hostCells addr bytes)

/-- The image M1 of 95_test_vectors.md B7. -/
def m1 : Memory := image 0x1000#32 ((List.range 64).map (BitVec.ofNat 8))

/-- BLK of V-ENC-5, and its CB. -/
def blkEnc5 : Block := #v[0, 2, 8, 10, 10, 8, 2, 0, 0, 0, 10, 10, 4, 6, 4, 6]
def cbEnc5 : CBlock := #v[0x00, 0x0A, 0x50, 0x93, 0x0A, 0x40, 0x32, 0x8E]

/-- BLK of V-ENC-8, whose block is 8-level. -/
def blkEnc8 : Block := #v[100, 100, 100, 100, 100, 100, 100, 100, 100, 100, 100, 100, 100, 100, 100, 101]

/-- BLK[i] = i, of V-IO-11 and V-IO-12. -/
def blkRamp : Block := Vector.ofFn fun i => BitVec.ofNat 8 i.val

/-- The host writes `w` to CMD next. -/
def issuing (w : Word) (s : State) : State := { s with host := [.write .word 0x00 w] }

/-! ### WellFormed refuses each ill-formed term (30_encoding.md R51) -/

theorem test_wellFormed_refuses_optDestroy_256 : (Instr.optDestroy 256).wellFormed = false := by decide
theorem test_wellFormed_refuses_optSetq_256 : (Instr.optSetq 256).wellFormed = false := by decide
theorem test_wellFormed_refuses_enc_256 : (Instr.enc 256).wellFormed = false := by decide
theorem test_wellFormed_refuses_dec_256 : (Instr.dec 256).wellFormed = false := by decide

/-! ### Words written out bit by bit: ZERO 31:16, HANDLE 15:8, OPC 7:0 (30_encoding.md R50, R52) -/

theorem test_decode_optCreate : decode 0b00000000000000000000000000000001#32 = .ok .optCreate := by decide
theorem test_decode_optDestroy : decode 0b00000000000000000000000100000010#32 = .ok (.optDestroy 1) := by decide
theorem test_decode_optSetq : decode 0b00000000000000001111111100000011#32 = .ok (.optSetq 255) := by decide
theorem test_decode_ext1 : decode 0b00000000000000000000000000010000#32 = .ok .ext1 := by decide
theorem test_decode_ext4 : decode 0b00000000000000000000000000010001#32 = .ok .ext4 := by decide
theorem test_decode_ldcb : decode 0b00000000000000000000000000010010#32 = .ok .ldcb := by decide
theorem test_decode_enc : decode 0b00000000000000000000000000100000#32 = .ok (.enc 0) := by decide
theorem test_decode_dec : decode 0b00000000000000001000000000100001#32 = .ok (.dec 128) := by decide
theorem test_decode_stcb : decode 0b00000000000000000000000000110000#32 = .ok .stcb := by decide
theorem test_decode_stb1 : decode 0b00000000000000000000000000110001#32 = .ok .stb1 := by decide
theorem test_decode_stb4 : decode 0b00000000000000000000000000110010#32 = .ok .stb4 := by decide

/-- V-ILL-1 to V-ILL-7, V-ILL-10, V-ILL-11. -/
theorem test_decode_refuses_illegal_words :
    [0x00000000#32, 0x00000004#32, 0x00000110#32, 0x00010020#32, 0x0001FF02#32, 0x00000101#32, 0x000000FF#32,
      0x80000020#32, 0x00000130#32].map decode =
    [.error .opcode, .error .opcode, .error .handleField, .error .zeroField, .error .zeroField, .error .handleField,
      .error .opcode, .error .zeroField, .error .handleField] := by decide

theorem test_decodeTableWord_sets_high_bits_to_zero : decodeTableWord 16 0x10120 = some (.enc 1) := by decide

/-! ### Option commands (95_test_vectors.md B3, B4) -/

/-- V-OPT-6: the least free slot is taken. -/
theorem test_optCreate_takes_slot_zero :
    after (exec .optCreate (withOpts [⟨false, 0#32⟩, ⟨true, 0x3F800000#32⟩])) (fun t =>
      decide (t.opts = [⟨true, 0x3F800000#32⟩, ⟨true, 0x3F800000#32⟩] ∧ t.result = 1#32 ∧ t.status = 0#32)) = true := by
  decide

/-- V-OPT-3. -/
theorem test_optCreate_without_free_slot :
    exec .optCreate { bothLive with result := 2#32 } =
      .next { bothLive with result := 0#32, status := 1#32 } := by rfl

/-- V-OPT-4. -/
theorem test_optDestroy_frees :
    exec (.optDestroy 1) bothLive =
      .next { bothLive with opts := [⟨false, 0#32⟩, ⟨true, 0x3F800000#32⟩] } := by rfl

/-- V-OPT-7 and V-OPT-11: the null handle, and one above N_OPT. -/
theorem test_optDestroy_refuses_other_handles :
    [exec (.optDestroy 0) bothLive, exec (.optDestroy 3) bothLive] =
      [.next { bothLive with status := 2#32 }, .next { bothLive with status := 2#32, staleUsed := true }] := by rfl

/-- V-CLQ-9, through the command. -/
theorem test_optSetq_clamps :
    after (exec (.optSetq 1) { oneLive with arg := 0x3F800001#32 }) (fun t =>
      decide (t.opts = [⟨true, 0x3F800000#32⟩, ⟨false, 0#32⟩] ∧ t.status = 0#32)) = true := by decide

/-- V-OPT-10: the slot is not valid. -/
theorem test_optSetq_refuses_free_slot :
    after (exec (.optSetq 2) { oneLive with arg := 0x3F000000#32 }) (fun t =>
      decide (t.opts = oneLive.opts ∧ t.status = 2#32)) = true := by decide

/-- V-CLQ-1 to V-CLQ-15. -/
theorem test_clampQ :
    [0xBF800000#32, 0x40000000#32, 0x3F000000#32, 0x00000000#32, 0x3F800000#32, 0x80000000#32, 0x7F800000#32,
      0xFF800000#32, 0x3F800001#32, 0x00000001#32, 0x3F7FFFFF#32, 0x7FC00000#32, 0xFFC00000#32, 0x7F800001#32,
      0x80000001#32].map clampQ =
    [0#32, 0x3F800000#32, 0x3F000000#32, 0#32, 0x3F800000#32, 0#32, 0x3F800000#32, 0#32, 0x3F800000#32, 1#32,
      0x3F7FFFFF#32, 0x3F800000#32, 0#32, 0x3F800000#32, 0#32] := by decide

/-! ### The codec's functions (95_test_vectors.md B1, B2) -/

/-- V-TAB-4, under both roundings. -/
theorem test_table_eight :
    table 200 100 = #v[200, 100, 186, 171, 157, 143, 129, 114] ∧
      tableWith 0 0 200 100 = #v[200, 100, 185, 171, 157, 142, 128, 114] := by decide

/-- V-TAB-17, under both roundings. -/
theorem test_table_six :
    table 16 240 = #v[16, 240, 61, 106, 150, 195, 0, 255] ∧
      tableWith 0 0 16 240 = #v[16, 240, 60, 105, 150, 195, 0, 255] := by decide

/-- V-PK-7: codes 0 to 7 twice. -/
theorem test_pack :
    packBlock 0x10 0xF0 #v[0, 1, 2, 3, 4, 5, 6, 7, 0, 1, 2, 3, 4, 5, 6, 7] =
      #v[0x10, 0xF0, 0x88, 0xC6, 0xFA, 0x88, 0xC6, 0xFA] := by decide

/-- V-PK-4 and V-PK-6: a code that straddles two bytes, and the last code. -/
theorem test_unpack_straddling :
    (unpackIdx #v[0, 0, 0xC0, 0x01, 0, 0, 0, 0xA0]) = #v[0, 0, 7, 0, 0, 0, 0, 0, 0, 0, 0, 0, 0, 0, 0, 5] := by decide

/-! ### ENC and DEC (95_test_vectors.md B5, B6) -/

/-- V-ENC-5: the 6-level candidate is chosen, and it depends on the tie rule. -/
theorem test_enc_six_level :
    after (exec (.enc 0) (withBlk blkEnc5)) (fun t =>
      decide (t.cb = cbEnc5 ∧ t.blk = blkEnc5 ∧ t.status = 0#32)) = true := by decide

/-- V-ENC-8: equal errors, so the 8-level candidate is chosen. -/
theorem test_enc_tie_is_eight_level :
    after (exec (.enc 0) (withBlk blkEnc8)) (fun t =>
      decide (t.cb = #v[0x65, 0x64, 0x49, 0x92, 0x24, 0x49, 0x92, 0x04])) = true := by decide

/-- V-DEC-2: every code of the 8-level mode. -/
theorem test_dec_eight_level :
    after (exec (.dec 0) (withCb #v[0xF0, 0x10, 0x88, 0xC6, 0xFA, 0x88, 0xC6, 0xFA])) (fun t =>
      decide (t.blk = #v[240, 16, 208, 176, 144, 112, 80, 48, 240, 16, 208, 176, 144, 112, 80, 48])) = true := by
  decide

/-- V-DEC-1: every code of the 6-level mode, the reserved ones among them. -/
theorem test_dec_six_level :
    after (exec (.dec 0) (withCb #v[0x10, 0xF0, 0x88, 0xC6, 0xFA, 0x88, 0xC6, 0xFA])) (fun t =>
      decide (t.blk = #v[16, 240, 61, 106, 150, 195, 0, 255, 16, 240, 61, 106, 150, 195, 0, 255])) = true := by
  decide

/-! ### Loads and stores (95_test_vectors.md B7) -/

/-- V-IO-5: stride −16. -/
theorem test_ext1_negative_stride :
    after (exec .ext1 { State.reset with mem := m1, srcAddr := 0x1030#32, srcStride := 0xFFFFFFF0#32 }) (fun t =>
      decide (t.blk = #v[0x30, 0x31, 0x32, 0x33, 0x20, 0x21, 0x22, 0x23, 0x10, 0x11, 0x12, 0x13, 0x00, 0x01, 0x02,
        0x03])) = true := by decide

/-- V-IO-8: addresses wrap at 2^32. -/
theorem test_ext1_wraps :
    after (exec .ext1 { State.reset with
      mem := image 0xFFFFFFF8#32 ((List.range 16).map fun i => BitVec.ofNat 8 (0xA0 + i))
      srcAddr := 0xFFFFFFF8#32
      srcStride := 4#32 }) (fun t =>
      decide (t.blk = #v[0xA0, 0xA1, 0xA2, 0xA3, 0xA4, 0xA5, 0xA6, 0xA7, 0xA8, 0xA9, 0xAA, 0xAB, 0xAC, 0xAD, 0xAE,
        0xAF])) = true := by decide

/-- V-IO-6: byte 0 of each texel. -/
theorem test_ext4_takes_red :
    after (exec .ext4 { State.reset with mem := m1, srcAddr := 0x1000#32, srcStride := 16#32 }) (fun t =>
      decide (t.blk = #v[0x00, 0x04, 0x08, 0x0C, 0x10, 0x14, 0x18, 0x1C, 0x20, 0x24, 0x28, 0x2C, 0x30, 0x34, 0x38,
        0x3C])) = true := by decide

/-- V-IO-9: the stride is not used. -/
theorem test_ldcb :
    after (exec .ldcb { State.reset with
      mem := image 0x2000#32 [0xFF, 0x00, 0x41, 0x10, 0x04, 0x41, 0x10, 0x04]
      srcAddr := 0x2000#32
      srcStride := 0x77#32 }) (fun t =>
      decide (t.cb = #v[0xFF, 0x00, 0x41, 0x10, 0x04, 0x41, 0x10, 0x04] ∧
        readReg (.cbw 0) t = 0x104100FF#32 ∧ readReg (.cbw 1) t = 0x04104104#32)) = true := by decide

/-- V-IO-10: an unaligned destination. -/
theorem test_stcb :
    after (exec .stcb { State.reset with cb := cbEnc5, dstAddr := 0x2003#32 }) (fun t =>
      decide (t.mem = image 0x2003#32 [0x00, 0x0A, 0x50, 0x93, 0x0A, 0x40, 0x32, 0x8E])) = true := by decide

/-- V-IO-11. -/
theorem test_stb1 :
    after (exec .stb1 { State.reset with blk := blkRamp, dstAddr := 0x3000#32 }) (fun t =>
      decide (t.mem = image 0x3000#32 ((List.range 16).map (BitVec.ofNat 8)))) = true := by decide

/-- V-IO-12. -/
theorem test_stb4 :
    after (exec .stb4 { State.reset with blk := blkRamp, dstAddr := 0x3000#32 }) (fun t =>
      decide (t.mem = image 0x3000#32 ((List.range 64).map fun k => BitVec.ofNat 8 (k / 4)))) = true := by
  decide

/-- A platform without the last eight source bytes: the first unbacked address faults (20_memory.md R36). -/
theorem test_ext1_unbacked_faults :
    exec .ext1 { State.reset with backed := [⟨0, 8⟩], srcStride := 4#32 } = .fault (.unbackedCommand 8) := by rfl

/-! ### The host port and reset -/

/-- V-IO-13: the windows of V-ENC-5's block. -/
theorem test_blk_windows :
    [readReg (.blkw 0) (withBlk blkEnc5), readReg (.blkw 1) (withBlk blkEnc5), readReg (.blkw 2) (withBlk blkEnc5),
      readReg (.blkw 3) (withBlk blkEnc5)] = [0x0A080200#32, 0x0002080A#32, 0x0A0A0000#32, 0x06040604#32] := by decide

/-- V-OPT-9, read back: OPTV, OPTQ[0], OPTQ[1], and the first offset after them. -/
theorem test_opt_windows :
    [0x1C, 0x400, 0x404, 0x408].map (fun off => readReg (oneLive.regAt off) oneLive) =
      [1#32, 0x3F000000#32, 0#32, 0#32] := by decide

/-- V-ILL-5: the illegal word is refused before its handle is looked at, and nothing but STATUS and the mark changes. -/
theorem test_illegal_word :
    step (issuing 0x0001FF02#32 bothLive) =
      .next { bothLive with status := 0xFFFFFFFF#32, illegalUsed := true } := by rfl

/-- V-OPT-1 by way of `withFetchWord`: the word runs as the first command after reset. -/
theorem test_withFetchWord_runs :
    step (State.reset.withFetchWord 32 0x00000001) =
      exec .optCreate State.reset := by rfl

/-- 70_reset_and_hazards.md R140: reset frees the slots and clears the registers, memory stays. -/
theorem test_reset :
    step { oneLive with host := [.reset], arg := 1#32, status := 2#32, mem := [(5, 7#8)] } =
      .next { State.reset with mem := [(5, 7#8)] } := by rfl

/-- 70_reset_and_hazards.md R141: a command that stores nothing and is cut short leaves memory alone. -/
theorem test_reset_during_load :
    after (step { oneLive with host := [.resetDuring 0x00000010#32], mem := [(5, 7#8)] }) (fun t =>
      decide (t.mem = [(5, 7#8)] ∧ t.opts = State.reset.opts ∧ t.draws = 1)) = true := by decide

/-- 70_reset_and_hazards.md R146: tile (1, 1) of an image of width 8 (program P2). -/
theorem test_tile_offsets : tileSrc 8 1 1 = 0x24 ∧ tileDst 8 1 1 = 0x18 := by decide

/-- 70_reset_and_hazards.md R147: partial tiles are skipped; 30_encoding.md R72: the words of `COMPRESS1 1`. -/
theorem test_driver :
    tiles 9 7 = [(0, 0), (1, 0)] ∧
      pseudoCompress1 1 =
        [.write .word 0 0x10#32, .write .word 0 0x120#32, .write .word 0 0x30#32] := by decide

/-! ### Witnesses: for each obligation with hypotheses, inputs that meet all of them -/

/-- O1: a well-formed command, its handle at the field's greatest value. -/
theorem witness_EncodedCommandDecodesBack : (Instr.enc 255).wellFormed = true := by decide

/-- O2: a legal word. -/
theorem witness_LegalWordIsTheEncodingOfItsCommand : decode 0x0000FF21#32 = .ok (.dec 255) := by decide

/-- O3: each of the three conditions alone, and a legal word. -/
theorem witness_IllegalWords :
    (issuing 0x00010001#32 State.reset).host = .write .word 0x00 0x00010001#32 :: [] ∧
      (0x00010001#32 : Word).toNat / 2 ^ 16 ≠ 0 ∧
      (0x00000004#32 : Word).toNat % 256 ∉ [0x01, 0x02, 0x03, 0x10, 0x11, 0x12, 0x20, 0x21, 0x30, 0x31, 0x32] ∧
      ((0x00000110#32 : Word).toNat % 256 ∈ [0x01, 0x10, 0x11, 0x12, 0x30, 0x31, 0x32] ∧
        (0x00000110#32 : Word).toNat / 256 % 256 ≠ 0) ∧
      decode 0x0000FF03#32 = .ok (.optSetq 255) := by decide

/-- O5: a write of a legal word, and a read of CMD. -/
theorem witness_StepRunsTheDecodedCommand :
    (issuing 0x00000020#32 State.reset).host = .write .word 0x00 0x00000020#32 :: [] ∧
      decode 0x00000020#32 = .ok (.enc 0) ∧
      ({ State.reset with host := [.read .word 0x00] } : State).host = .read .word 0x00 :: [] := by decide

/-- O6: the least and the greatest live handle of a block with two slots, and the first that names no slot. -/
theorem witness_LiveHandle :
    isLive 0 bothLive = false ∧ isLive 1 bothLive = true ∧ isLive 2 bothLive = true ∧ isLive 3 bothLive = false := by
  decide

/-- O7: a free slot above a valid one; no free slot; a number of slots in range. -/
theorem witness_CreateTakesTheLeastFreeSlot :
    (∃ (k : Nat) (hk : k < oneLive.opts.length), (oneLive.opts[k]).valid = false ∧
      ∀ (j : Nat) (hj : j < k), (oneLive.opts[j]).valid = true) ∧
      (∀ o ∈ bothLive.opts, o.valid = true) ∧ oneLive.opts.length ≤ 255 ∧
      after (exec .optCreate oneLive) (fun t => decide (t.status = 0#32)) = true := by
  refine ⟨⟨1, by decide, rfl, fun j hj => ?_⟩, by decide, by decide, by decide⟩
  obtain rfl : j = 0 := by omega
  rfl

/-- O8, O9, O13, O14: a live handle, a stale one, and (for O13, O14) the null one. -/
theorem witness_Handles :
    isLive 1 oneLive = true ∧ isLive 2 oneLive = false ∧ isLive 0 oneLive = false ∧ (2 : Nat) ≠ 0 ∧ 2 ≤ 255 := by
  decide

/-- O10: the boundary patterns of the clamp; 1.0 is a number. -/
theorem witness_Clamp :
    2 ^ 31 ≤ (0x80000000#32 : Word).toNat ∧
      ((0x7FFFFFFF#32 : Word).toNat < 2 ^ 31 ∧ 0x3F800000 < (0x3F800001#32 : Word).toNat) ∧
      (0x3F800000#32 : Word).toNat ≤ 0x3F800000 ∧ ¬ isNaN 0x3F800000#32 ∧ isNaN 0x7FC00000#32 := by
  unfold isNaN
  decide

/-- O11: a slot becomes valid; a slot becomes free; a quality changes. -/
theorem witness_SlotsChange :
    (∃ t o o', step (issuing 0x00000001#32 State.reset) = .next t ∧ State.reset.opts[0]? = some o ∧
      t.opts[0]? = some o' ∧ o.valid = false ∧ o'.valid = true) ∧
    (∃ t o o', step (issuing 0x00000102#32 oneLive) = .next t ∧ oneLive.opts[0]? = some o ∧
      t.opts[0]? = some o' ∧ o.valid = true ∧ o'.valid = false) ∧
    (∃ t o o', step { issuing 0x00000103#32 oneLive with arg := 0#32 } = .next t ∧ oneLive.opts[0]? = some o ∧
      t.opts[0]? = some o' ∧ o.quality ≠ o'.quality) :=
  ⟨⟨_, _, _, rfl, rfl, rfl, rfl, rfl⟩, ⟨_, _, _, rfl, rfl, rfl, rfl, rfl⟩, ⟨_, _, _, rfl, rfl, rfl, by decide⟩⟩

/-- O12: handle 2 is live and so is the only lower one. -/
theorem witness_DestroyedHandleIsIssuedAgain :
    isLive 2 bothLive = true ∧ 2 ≤ 255 ∧ ∀ j, 1 ≤ j → j < 2 → isLive j bothLive = true := by
  refine ⟨by decide, by decide, fun j h1 h2 => ?_⟩
  obtain rfl : j = 1 := by omega
  decide

/-- O15: a live handle in one state and the null handle in another with the same CB and BLK. -/
theorem witness_CodecOutputIgnoresTheOptions :
    (1 = 0 ∨ isLive 1 oneLive = true) ∧ ((0 : Nat) = 0 ∨ isLive 0 State.reset = true) ∧
      oneLive.blk = State.reset.blk ∧ oneLive.cb = State.reset.cb ∧
      (∃ t t', exec (.enc 1) oneLive = .next t ∧ exec (.enc 0) State.reset = .next t') ∧
      ∃ t t', exec (.dec 1) oneLive = .next t ∧ exec (.dec 0) State.reset = .next t' :=
  ⟨by decide, by decide, rfl, rfl, ⟨_, _, rfl, rfl⟩, ⟨_, _, rfl, rfl⟩⟩

/-- O16: two states that differ in a quality, and a command that completes in one. -/
theorem witness_QualitiesReachNothingElse :
    SameButQualities oneLive (withOpts [⟨true, 0#32⟩, ⟨false, 0#32⟩]) ∧ ∃ t, exec (.enc 1) oneLive = .next t :=
  ⟨⟨rfl, rfl⟩, ⟨_, rfl⟩⟩

/-- O18: the last bit of the last code. -/
theorem witness_IndexBitsLieAsTabled : 2 < 3 ∧ 2 + (3 * (15 : Fin 16).val + 2) / 8 = 7 := by decide

/-- O19, O20: endpoints of either mode, and codes at the ends of each range. -/
theorem witness_Table :
    ((1#8).toNat < (2#8).toNat ∧ 2 ≤ (2 : Code).val ∧ 2 ≤ (7 : Code).val) ∧
      ((2#8).toNat ≤ (2#8).toNat ∧ 2 ≤ (2 : Code).val ∧ (5 : Code).val ≤ 5) ∧ 0 ≤ 7 ∧ 7 ≤ 7 ∧ 5 ≤ 5 := by decide

/-- O21: codes 5, 6 and 7, and the greatest lower endpoint. -/
theorem witness_DecoderCornerCases :
    ((#v[5, 6, 7, 0, 0, 0, 0, 0, 0, 0, 0, 0, 0, 0, 0, 0] : Codes)[0]).val ≤ 5 ∧
      (#v[5, 6, 7, 0, 0, 0, 0, 0, 0, 0, 0, 0, 0, 0, 0, 0] : Codes)[1] = 6 ∧
      (#v[5, 6, 7, 0, 0, 0, 0, 0, 0, 0, 0, 0, 0, 0, 0, 0] : Codes)[2] = 7 ∧ (254#8).toNat < 255 := by decide

/-- O23, O26, O29, O30: a block and its extremes. -/
theorem witness_Extremes : IsLeastSample blkEnc5 0#8 ∧ IsGreatestSample blkEnc5 10#8 ∧ blkEnc5[0] = 0#8 ∧ blkEnc5[3] = 10#8 := by
  unfold IsLeastSample IsGreatestSample
  decide

/-- O25: extremes that differ, and the nearest codes of both candidates (V-ENC-8). -/
theorem witness_EncoderChoosesTheBetterMode :
    IsLeastSample blkEnc8 100#8 ∧ IsGreatestSample blkEnc8 101#8 ∧ (100#8).toNat < (101#8).toNat ∧
      (∀ i : Fin 16, IsNearest (table 101#8 100#8) (blkEnc8[i]) (if i = 15 then 0 else 1)) ∧
      (∀ i : Fin 16, IsNearest (table 100#8 101#8) (blkEnc8[i]) (if i = 15 then 1 else 0)) := by
  unfold IsLeastSample IsGreatestSample IsNearest
  decide

/-- O27, O30: an encoded block that is 6-level and not flat (V-ENC-5). -/
theorem witness_SixLevel : ((encodeBlock blkEnc5)[0]).toNat < ((encodeBlock blkEnc5)[1]).toNat := by decide

/-- O30, O31: an encoded block that is 8-level (V-ENC-8). -/
theorem witness_EightLevel : ((encodeBlock blkEnc8)[1]).toNat < ((encodeBlock blkEnc8)[0]).toNat := by decide

/-- The platform of the reset state backs every address. -/
theorem reset_backs (a : Word) : State.reset.isBacked a = true := by
  have := a.isLt
  simp only [State.isBacked, State.reset, List.any_cons, List.any_nil, Bool.or_false, Bool.and_eq_true,
    decide_eq_true_eq]
  omega

/-- O32 to O38: a canonical memory and backed addresses for every command that uses memory. -/
theorem witness_BackedAddresses :
    State.reset.mem.wf = true ∧
      (∀ r c, r < 4 → c < 4 → State.reset.isBacked
        (BitVec.ofNat 32 (State.reset.srcAddr.toNat + r * State.reset.srcStride.toNat + c)) = true) ∧
      (∀ r c, r < 4 → c < 4 → State.reset.isBacked
        (BitVec.ofNat 32 (State.reset.srcAddr.toNat + r * State.reset.srcStride.toNat + 4 * c + 0)) = true) ∧
      (∀ j, j < 8 → State.reset.isBacked (BitVec.ofNat 32 (State.reset.srcAddr.toNat + j)) = true) ∧
      (∀ j, j < 16 → State.reset.isBacked (BitVec.ofNat 32 (State.reset.dstAddr.toNat + j)) = true) ∧
      ∀ i n, i < 16 → n < 4 → State.reset.isBacked
        (BitVec.ofNat 32 (State.reset.dstAddr.toNat + 4 * i + n)) = true :=
  ⟨rfl, fun _ _ _ _ => reset_backs _, fun _ _ _ _ => reset_backs _, fun _ _ => reset_backs _, fun _ _ => reset_backs _,
    fun _ _ _ _ => reset_backs _⟩

/-- O39: all addresses backed, and one that is not. -/
theorem witness_CommandsCompleteExactlyOnBackedAddresses :
    (∀ a ∈ accessed .stb4 State.reset, State.reset.isBacked a = true) ∧
      ∃ a ∈ accessed .ldcb State.reset, ({ State.reset with backed := [⟨0, 7⟩] } : State).isBacked a = false :=
  ⟨fun a _ => reset_backs a, ldcbAddr State.reset 7, by simp [accessed, loadAddrs], by decide⟩

/-- O38, O40, O41: a command completes on a canonical memory. -/
theorem witness_CommandCompletes : State.reset.mem.wf = true ∧ (∃ t, exec .stcb State.reset = .next t) ∧
    ∃ t, exec .stb4 State.reset = .next t :=
  ⟨rfl, ⟨_, rfl⟩, ⟨_, rfl⟩⟩

/-- O42, O43, O44: each status. -/
theorem witness_EachStatus :
    (∃ t, issue 0x00000001#32 bothLive = .next t ∧ t.status = Config.stErrNewMem ∧ t.status ≠ 0#32) ∧
      (∃ t, issue 0x00000202#32 oneLive = .next t ∧ t.status = Config.stErrInvalidPtr ∧ t.staleUsed = true) ∧
      (∃ t, issue 0x00000000#32 oneLive = .next t ∧ t.status = Config.stFail ∧ t.illegalUsed = true) ∧
      ∃ t, issue 0x00000010#32 oneLive = .next t ∧ t.status = Config.stOk :=
  ⟨⟨_, rfl, by decide, by decide⟩, ⟨_, rfl, by decide, by decide⟩, ⟨_, rfl, by decide, by decide⟩, ⟨_, rfl, by decide⟩⟩

/-- O46, O47: a state that meets the invariant, and its step. -/
theorem witness_StepKeepsTheInvariant : Inv oneLive ∧ ∃ t, step oneLive = .next t := by
  refine ⟨⟨?_, by decide, .inl rfl, by decide, by decide⟩, _, rfl⟩
  intro o ho
  have h : o = ⟨true, 0x3F000000#32⟩ ∨ o = ⟨false, 0#32⟩ := by simpa [oneLive, withOpts] using ho
  rcases h with rfl | rfl
  · exact ⟨by decide, by simp⟩
  · exact ⟨by decide, fun _ => rfl⟩

/-- O48: a canonical memory that lists its last address. -/
theorem witness_CanonicalMemory : Memory.wf [(0, 1#8), (2 ^ 32 - 1, 255#8)] = true := by decide

/-- O49, O50: aligned offsets of every kind of the map, at the ends of its ranges. -/
theorem witness_HostOffsets :
    ({ State.reset with host := [.read .word 0x1C] } : State).host = .read .word 0x1C :: [] ∧
      ({ State.reset with host := [.write .word 0x0C 7#32] } : State).host = .write .word 0x0C 7#32 :: [] ∧
      (∀ off ∈ [0x00, 0x04, 0x08, 0x0C, 0x10, 0x14, 0x18, 0x1C, 0x20, 0x2C, 0x30, 0x34, 0x38, 0x3C, 0x40, 0x3FC, 0x400,
        0x404, 0x408], off % 4 = 0) ∧
      1 < State.reset.opts.length ∧ 0x404 = 0x400 + 4 * 1 ∧ 0x400 + 4 * State.reset.opts.length ≤ 0x408 := by decide

/-- O51: the ends of the lane range, and a register outside a window. -/
theorem witness_HostWindows : 0 < 4 ∧ 3 < 4 ∧ (4 : Fin 16).val / 4 ≠ (0 : Fin 4).val ∧ (3 : Fin 8).val / 4 ≠ (1 : Fin 2).val := by
  decide

/-- O52: a visible slot, and one that is not there. -/
theorem witness_Optv : 1 < oneLive.opts.length ∧ 1 < 32 ∧ oneLive.opts.length ≤ 2 := by decide

/-- O53: a byte access and an unaligned one. -/
theorem witness_OtherHostAccesses :
    (AccessWidth.byte ≠ .word ∧ ({ State.reset with host := [.read .byte 0x20] } : State).host = .read .byte 0x20 :: []) ∧
      (0x22 % 4 ≠ 0 ∧
        ({ State.reset with host := [.write .word 0x22 7#32] } : State).host = .write .word 0x22 7#32 :: []) := by
  decide

/-- O54: a write and a read of two bytes that wrap at 2^32. -/
theorem witness_HostMemory :
    let s : State := { State.reset with host := [.memWrite 0xFFFFFFFF#32 [1#8, 2#8], .memRead 0xFFFFFFFF#32 2] }
    s.mem.wf = true ∧ [1#8, 2#8].length ≤ 2 ^ 32 ∧
      (∀ k, k < [1#8, 2#8].length → s.isBacked (0xFFFFFFFF#32 + BitVec.ofNat 32 k) = true) ∧
      s.host = .memWrite 0xFFFFFFFF#32 [1#8, 2#8] :: .memRead 0xFFFFFFFF#32 [1#8, 2#8].length :: [] :=
  ⟨rfl, by decide, fun _ _ => reset_backs _, rfl⟩

/-- O55, O56, O57: RESET pending, RESET during STB4 on backed addresses, and nothing pending. -/
theorem witness_Reset :
    ({ oneLive with host := [.reset] } : State).host = .reset :: [] ∧
      (({ oneLive with host := [.resetDuring 0x32#32] } : State).mem.wf = true ∧
        ({ oneLive with host := [.resetDuring 0x32#32] } : State).host = .resetDuring 0x32#32 :: [] ∧
        ∀ i, decode 0x32#32 = .ok i → ∀ a ∈ accessed i { oneLive with host := [.resetDuring 0x32#32] },
          ({ oneLive with host := [.resetDuring 0x32#32] } : State).isBacked a = true) ∧
      State.reset.host = [] :=
  ⟨rfl, ⟨rfl, rfl, fun _ _ a _ => reset_backs a⟩, rfl⟩

/-- O58, O59: the two pseudo-instructions pending, with the null and with a live handle. -/
theorem witness_PseudoInstructions :
    let s : State := { oneLive with host := pseudoCompress1 0 ++ [] }
    let t : State := { oneLive with host := pseudoDecompress4 1 ++ [] }
    (s.mem.wf = true ∧ 0 ≤ 255 ∧ ((0 : Nat) = 0 ∨ isLive 0 s = true) ∧ s.host = pseudoCompress1 0 ++ [] ∧
      (∀ i : Fin 16, s.isBacked (ext1Addr s i) = true) ∧
      ∀ j : Nat, j < 8 → s.isBacked (s.dstAddr + BitVec.ofNat 32 j) = true) ∧
    (t.mem.wf = true ∧ 1 ≤ 255 ∧ (1 = 0 ∨ isLive 1 t = true) ∧ t.host = pseudoDecompress4 1 ++ [] ∧
      (∀ j : Fin 8, t.isBacked (ldcbAddr t j) = true) ∧
      ∀ k : Nat, k < 64 → t.isBacked (t.dstAddr + BitVec.ofNat 32 k) = true) :=
  ⟨⟨rfl, by decide, .inl rfl, rfl, fun _ => reset_backs _, fun _ _ => reset_backs _⟩,
    ⟨rfl, by decide, .inr rfl, rfl, fun _ => reset_backs _, fun _ _ => reset_backs _⟩⟩

end Sys2Proof.Tests
end

section
/-! PROOFS. The statements about the registers and the host port that are settled from 10_state.md: the windows on BLK
and CB (R12), the command register (R18), the views on the option slots (R23) and reset (R25). -/

namespace Sys2Proof.Machine

/-! ### Windows (10_state.md R12) -/

/-- `lane_lanes` for a lane given by its number. -/
theorem lane_lanes_apply (f : Fin 4 → Byte) (k : Fin 4) : lane (lanes (f 0) (f 1) (f 2) (f 3)) k = f k := by
  obtain ⟨h0, h1, h2, h3⟩ := lane_lanes (f 0) (f 1) (f 2) (f 3)
  fin_cases k
  · exact h0
  · exact h1
  · exact h2
  · exact h3

/-- A word is determined by its four bytes. -/
theorem eq_of_lane_eq {v w : Word} (h : ∀ k < 4, lane v k = lane w k) : v = w := by
  rw [← lanes_lane v, ← lanes_lane w, h 0 (by decide), h 1 (by decide), h 2 (by decide), h 3 (by decide)]

theorem lane_blkWord (b : Block) (n : Fin 4) (k : Nat) (hk : k < 4) :
    lane (blkWord b n) k = b[4 * n.val + k] :=
  lane_lanes_apply (fun k => b[4 * n.val + k.val]) ⟨k, hk⟩

theorem lane_cbWord (b : CBlock) (n : Fin 2) (k : Nat) (hk : k < 4) :
    lane (cbWord b n) k = b[4 * n.val + k] :=
  lane_lanes_apply (fun k => b[4 * n.val + k.val]) ⟨k, hk⟩

theorem setBlkWord_getElem (b : Block) (n : Fin 4) (v : Word) (i : Nat) (hi : i < 16) :
    (setBlkWord b n v)[i] = if i / 4 = n.val then lane v (i % 4) else b[i] := by
  simp [setBlkWord]

theorem setCbWord_getElem (b : CBlock) (n : Fin 2) (v : Word) (j : Nat) (hj : j < 8) :
    (setCbWord b n v)[j] = if j / 4 = n.val then lane v (j % 4) else b[j] := by
  simp [setCbWord]

theorem setBlkWord_getElem_covered (b : Block) (n : Fin 4) (v : Word) (k : Nat) (hk : k < 4) :
    (setBlkWord b n v)[4 * n.val + k] = lane v k := by
  rw [setBlkWord_getElem, if_pos (by omega), Nat.mul_add_mod, Nat.mod_eq_of_lt hk]

theorem setCbWord_getElem_covered (b : CBlock) (n : Fin 2) (v : Word) (k : Nat) (hk : k < 4) :
    (setCbWord b n v)[4 * n.val + k] = lane v k := by
  rw [setCbWord_getElem, if_pos (by omega), Nat.mul_add_mod, Nat.mod_eq_of_lt hk]

theorem blkWord_setBlkWord (b : Block) (n : Fin 4) (v : Word) : blkWord (setBlkWord b n v) n = v :=
  eq_of_lane_eq fun k hk => by rw [lane_blkWord _ _ k hk, setBlkWord_getElem_covered b n v k hk]

theorem cbWord_setCbWord (b : CBlock) (n : Fin 2) (v : Word) : cbWord (setCbWord b n v) n = v :=
  eq_of_lane_eq fun k hk => by rw [lane_cbWord _ _ k hk, setCbWord_getElem_covered b n v k hk]

/-- Settles O51, byte by byte: a window's byte `k` is the register it covers, and a word is its four bytes. -/
theorem hostWindowsPackFourRegisters : Obligations.HostWindowsPackFourRegisters := by
  unfold Obligations.HostWindowsPackFourRegisters
  refine ⟨fun b n v => ⟨lane_blkWord b n, setBlkWord_getElem_covered b n v, blkWord_setBlkWord b n v, ?_⟩,
    fun b n v => ⟨lane_cbWord b n, setCbWord_getElem_covered b n v, cbWord_setCbWord b n v, ?_⟩⟩
  · intro i hi
    exact (setBlkWord_getElem b n v i i.isLt).trans (if_neg hi)
  · intro j hj
    exact (setCbWord_getElem b n v j j.isLt).trans (if_neg hj)

/-! ### The views on the option slots (10_state.md R23) -/

/-- A bit of OPTV: the valid bit of a slot below 32, and 0 where there is no slot or it is not visible. -/
theorem optvWord_getLsbD (opts : List OptSlot) (k : Nat) :
    (optvWord opts).getLsbD k = (decide (k < 32) && (opts[k]?.map OptSlot.valid).getD false) := by
  rw [optvWord, BitVec.getLsbD_ofNat, validBits_testBit]
  by_cases hk : k < 32 <;> simp [hk]

theorem qualityOf_succ {s : State} {k : Nat} (hk : k < s.opts.length) :
    qualityOf (k + 1) s = (s.opts[k]).quality := by
  simp [qualityOf, hk]

/-- Settles O52, from the value of each bit of OPTV. -/
theorem optvShowsTheValidBits : Obligations.OptvShowsTheValidBits := by
  unfold Obligations.OptvShowsTheValidBits
  intro s k
  refine ⟨fun hk h32 => ?_, fun hk => ?_, qualityOf_succ⟩
  · rw [readReg, optvWord_getLsbD, List.getElem?_eq_getElem hk, decide_eq_true h32]
    rfl
  · rw [readReg, optvWord_getLsbD, List.getElem?_eq_none hk]
    exact Bool.and_false _

/-! ### The command register (10_state.md R18) -/

@[simp] theorem regAt_zero (s : State) : s.regAt 0x00 = .cmd := rfl

theorem issue_of_decode {w : Word} {i : Instr} (h : decode w = .ok i) (s : State) : issue w s = exec i s := by
  rw [issue, h]

/-- Settles O5: offset 0 is CMD, whose write issues the word and whose read gives 0. -/
theorem stepRunsTheDecodedCommand : Obligations.StepRunsTheDecodedCommand := by
  unfold Obligations.StepRunsTheDecodedCommand
  constructor
  · intro s w rest i hs hw
    rw [step_cons hs, hostStep_write rfl, regAt_zero, writeReg, issue_of_decode hw]
  · intro s rest hs
    rw [step_cons hs, hostStep_read rfl, regAt_zero, readReg]

/-! ### Reset (10_state.md R25) -/

theorem resetBlock_slot_free {s : State} {o : OptSlot} (ho : o ∈ (resetBlock s).opts) : o = OptSlot.free :=
  List.eq_of_mem_replicate ho

theorem isLive_resetBlock (h : Nat) (s : State) : isLive h (resetBlock s) = false := by
  rw [Bool.eq_false_iff, Ne, isLive_iff]
  rintro ⟨-, o, ho, hvalid⟩
  rw [resetBlock_slot_free (List.mem_of_getElem? ho)] at hvalid
  cases hvalid

/-- The state after reset is a reset state of the block. -/
theorem resetBlock_reset : resetBlock State.reset = State.reset := rfl

/-- Settles O55: `resetBlock` gives every register its value, and the state after reset is one it leaves as it is. -/
theorem resetPutsEveryRegisterAtItsValue : Obligations.ResetPutsEveryRegisterAtItsValue := by
  unfold Obligations.ResetPutsEveryRegisterAtItsValue
  intro atReset
  have hreset : ∀ s, atReset (resetBlock s) := fun s =>
    ⟨fun i => by simp, fun j => by simp, fun o ho => by simp [resetBlock_slot_free ho, OptSlot.free],
      fun h => isLive_resetBlock h s, rfl, rfl, rfl, rfl, rfl, rfl⟩
  refine ⟨resetBlock_reset ▸ hreset State.reset, fun s rest hs => ?_⟩
  exact ⟨_, step_cons hs, hreset _, by simp, rfl, rfl⟩

end Sys2Proof.Machine
end

section
/-! PROOFS. The statements about the encodings that are settled from 30_encoding.md: the illegal command words (R54), the
handles (R53) and the entries of the interpolation table (R62, R63). -/

namespace Sys2Proof

/-! ### Illegal command words (30_encoding.md R54) -/

/-- The eleven opcodes (30_encoding.md R52). -/
def opcodes : List Nat := [0x01, 0x02, 0x03, 0x10, 0x11, 0x12, 0x20, 0x21, 0x30, 0x31, 0x32]

/-- The opcodes of format CMD-N, whose HANDLE field must be zero (30_encoding.md R50, R52). -/
def cmdNOpcodes : List Nat := [0x01, 0x10, 0x11, 0x12, 0x30, 0x31, 0x32]

theorem noHandle_error_iff (h : Nat) (i : Instr) : (∃ e, noHandle h i = .error e) ↔ h ≠ 0 := by
  by_cases hh : h = 0 <;> simp [noHandle, hh]

/-- The opcode map answers no command for a reserved opcode, and for a CMD-N opcode whose HANDLE field is not zero. -/
theorem decodeOpc_error_iff (opc h : Nat) :
    (∃ e, decodeOpc opc h = .error e) ↔ opc ∉ opcodes ∨ (opc ∈ cmdNOpcodes ∧ h ≠ 0) := by
  unfold decodeOpc
  split
  case h_12 => simp_all [opcodes] -- a reserved opcode: none of the eleven arms
  all_goals simp [opcodes, cmdNOpcodes, noHandle_error_iff]

theorem decode_error_iff (w : Word) :
    (∃ e, decode w = .error e) ↔
      w.toNat / 2 ^ 16 ≠ 0 ∨ w.toNat % 256 ∉ opcodes ∨
      (w.toNat % 256 ∈ cmdNOpcodes ∧ w.toNat / 256 % 256 ≠ 0) := by
  rw [← decodeOpc_error_iff, ne_eq, ← zeroField_eq_zero, ← opcField_eq, ← handleField_eq, decode]
  by_cases hz : zeroField w = 0
  · rw [if_pos hz, or_iff_right (not_not_intro hz)]
  · rw [if_neg hz]
    exact iff_of_true ⟨_, rfl⟩ (.inl hz)

namespace Machine

/-- A word written to CMD is issued on the state with the write taken off the host's list. -/
theorem step_write_cmd {s : State} {w : Word} {rest : List HostOp} (hs : s.host = .write .word 0x00 w :: rest) :
    step s = issue w { s with host := rest } := by
  rw [step_cons hs, hostStep_write rfl, regAt_zero, writeReg]

/-- Settles O3: the three conditions are those of the decoder's errors, and a word either decodes or raises ST_FAIL. -/
theorem illegalWordsRaiseFailAndChangeNothingElse : Obligations.IllegalWordsRaiseFailAndChangeNothingElse := by
  unfold Obligations.IllegalWordsRaiseFailAndChangeNothingElse
  intro s w rest hs illegal
  have hill : (∃ e, decode w = .error e) ↔ illegal := decode_error_iff w
  rw [← hill, step_write_cmd hs]
  rcases issue_cases w { s with host := rest } with ⟨i, hi, hissue⟩ | ⟨e, he, hissue⟩
  · refine ⟨fun ⟨e, he⟩ => ?_, fun _ => ⟨i, hi, hissue⟩⟩
    rw [hi] at he
    cases he
  · exact ⟨fun _ => ⟨true, hissue⟩, fun hlegal => absurd ⟨e, he⟩ hlegal⟩

/-! ### The interpolation table (30_encoding.md R60 to R63) -/

theorem level8_zero (a b : Nat) : level8 3 a b 0 = b := by
  rw [level8]
  omega

theorem level8_seven (a b : Nat) : level8 3 a b 7 = a := by
  rw [level8]
  omega

theorem level6_zero (a b : Nat) : level6 2 a b 0 = a := by
  rw [level6]
  omega

theorem level6_five (a b : Nat) : level6 2 a b 5 = b := by
  rw [level6]
  omega

/-- Codes 0 and 1 are the endpoints in both modes. -/
theorem table_zero (a b : Byte) : (table a b)[0] = a := by
  apply BitVec.eq_of_toNat_eq
  rw [table_toNat a b 0 (by decide), entryWith]
  cases modeOf a b <;> rfl

theorem table_one (a b : Byte) : (table a b)[1] = b := by
  apply BitVec.eq_of_toNat_eq
  rw [table_toNat a b 1 (by decide), entryWith]
  cases modeOf a b <;> rfl

section
variable {a b : Byte}

theorem table_toNat_eight (h : b.toNat < a.toNat) (i : Code) :
    ((table a b)[i]).toNat = entry8 3 a.toNat b.toNat i := by
  rw [Fin.getElem_fin, table_toNat a b i i.isLt, entryWith, modeOf_eight h]
  rfl

theorem table_toNat_six (h : a.toNat ≤ b.toNat) (i : Code) :
    ((table a b)[i]).toNat = entry6 2 a.toNat b.toNat i := by
  rw [Fin.getElem_fin, table_toNat a b i i.isLt, entryWith, modeOf_six h]
  rfl

/-- The two codes of the 6-level mode that name no blend. -/
theorem table_six_of_le (h : a.toNat ≤ b.toNat) : (table a b)[6] = 0#8 :=
  BitVec.eq_of_toNat_eq (table_toNat_six h 6)

theorem table_seven_of_le (h : a.toNat ≤ b.toNat) : (table a b)[7] = 255#8 :=
  BitVec.eq_of_toNat_eq (table_toNat_six h 7)

end

theorem entry8_blend {r7 a b i : Nat} (h2 : 2 ≤ i) : entry8 r7 a b i = ((8 - i) * a + (i - 1) * b + r7) / 7 := by
  match i, h2 with
  | _ + 2, _ => rfl

theorem entry6_blend {r5 a b i : Nat} (h2 : 2 ≤ i) (h5 : i ≤ 5) :
    entry6 r5 a b i = ((6 - i) * a + (i - 1) * b + r5) / 5 := by
  interval_cases i <;> rfl

/-- Settles O19: the mode selects the table's rule, whose entries are blends and levels. -/
theorem tableEntriesAreTheRoundedBlends : Obligations.TableEntriesAreTheRoundedBlends := by
  unfold Obligations.TableEntriesAreTheRoundedBlends
  intro a b i
  constructor
  · intro h
    refine ⟨table_zero a b, table_one a b, fun h2 => ?_, fun h2 => ?_, (level8_seven _ _).symm,
      (level8_zero _ _).symm⟩
    · rw [table_toNat_eight h, entry8_blend h2]
    · rw [table_toNat_eight h, entry8_eq_level8 h2 (by omega)]
  · intro h
    refine ⟨table_zero a b, table_one a b, table_six_of_le h, table_seven_of_le h, fun h2 h5 => ?_, fun h2 h5 => ?_,
      (level6_zero _ _).symm, (level6_five _ _).symm⟩
    · rw [table_toNat_six h, entry6_blend h2 h5]
    · rw [table_toNat_six h, entry6_eq_level6 h2 h5]

/-! ### Handles (30_encoding.md R53) -/

/-- Settles O6, from what a live and a stale handle is. -/
theorem liveHandleNamesAValidSlot : Obligations.LiveHandleNamesAValidSlot := by
  unfold Obligations.LiveHandleNamesAValidSlot
  intro h s
  refine ⟨?_, isStale_iff h s, ?_⟩
  · rw [isLive_iff]
    refine and_congr_right fun _ => ⟨?_, ?_⟩
    · rintro ⟨o, ho, hvalid⟩
      obtain ⟨hk, rfl⟩ := List.getElem?_eq_some_iff.1 ho
      exact ⟨hk, hvalid⟩
    · rintro ⟨hk, hvalid⟩
      exact ⟨_, List.getElem?_eq_getElem hk, hvalid⟩
  · rw [handleFits, decide_eq_true_eq]
    omega

end Machine
end Sys2Proof
end

section
/-! PROOFS. The statements about the option commands (40_options.md R80 to R82): what each does in each of its cases, and
which handles are live after a slot is replaced. -/

namespace Sys2Proof.Machine

section
variable {h : Nat} {s : State}

/-! ### OPT_CREATE (40_options.md R80) -/

theorem exec_optCreate (s : State) : exec .optCreate s = execOptCreate s := rfl

theorem execOptCreate_of_leastFree {k : Nat} (hk : leastFree s.opts = some k) :
    execOptCreate s = .next
      { s with opts := s.opts.set k ⟨true, 0x3F800000#32⟩, result := BitVec.ofNat 32 (k + 1), status := 0#32 } := by
  rw [execOptCreate, hk]
  rfl

theorem execOptCreate_of_full (hfull : ∀ o ∈ s.opts, o.valid = true) :
    execOptCreate s = .next { s with result := 0#32, status := Config.stErrNewMem } := by
  rw [execOptCreate, leastFree_none_iff.2 hfull]
  rfl

/-- The handle of a slot, as RESULT holds it, is not null. -/
theorem handleWord_ne_zero {k : Nat} (hk : k < 255) : BitVec.ofNat 32 (k + 1) ≠ 0#32 := by
  intro h0
  have htoNat := congrArg BitVec.toNat h0
  rw [BitVec.toNat_ofNat, BitVec.toNat_ofNat] at htoNat
  omega

/-- A creation that ends with ST_OK answers a handle, where the slots are within the HANDLE field. -/
theorem execOptCreate_result_ne_zero {t : State} (hlen : s.opts.length ≤ 255) (ht : execOptCreate s = .next t)
    (hok : t.status = Config.stOk) : t.result ≠ 0#32 := by
  rcases execOptCreate_next ht with ⟨-, rfl⟩ | ⟨k, hk, rfl⟩
  · have hne : Config.stErrNewMem ≠ Config.stOk := by decide
    exact absurd hok hne
  · obtain ⟨hlt, -⟩ := leastFree_some_iff.1 hk
    exact handleWord_ne_zero (hlt.trans_le hlen)

/-! ### A live handle after its slot is replaced (30_encoding.md R53) -/

theorem isLive_set_opts {t : State} {o : OptSlot} (hl : isLive h s = true) (ht : t.opts = s.opts.set (h - 1) o) :
    isLive h t = o.valid := by
  cases h with
  | zero => cases hl
  | succ k =>
    obtain ⟨_, hslot, -⟩ := (isLive_succ k s).1 hl
    obtain ⟨hk, -⟩ := List.getElem?_eq_some_iff.1 hslot
    have hnew : t.opts[k]? = some o := by rw [ht, Nat.add_sub_cancel, List.getElem?_set_self hk]
    rw [isLive, hnew]

/-! ### OPT_DESTROY and OPT_SETQ (40_options.md R81, R82) -/

theorem exec_optDestroy (h : Nat) (s : State) : exec (.optDestroy h) s = execOptDestroy h s := rfl

theorem exec_optSetq (h : Nat) (s : State) : exec (.optSetq h) s = execOptSetq h s := rfl

theorem execOptDestroy_of_live (hl : isLive h s = true) :
    execOptDestroy h s = .next { s with opts := s.opts.set (h - 1) ⟨false, 0#32⟩, status := 0#32 } := by
  rw [execOptDestroy, if_pos hl]
  rfl

theorem execOptDestroy_of_not_live (hl : isLive h s = false) : execOptDestroy h s = raiseInvalidPtr h s := by
  rw [execOptDestroy, hl, if_neg Bool.false_ne_true]

theorem execOptSetq_of_live (hl : isLive h s = true) :
    execOptSetq h s = .next { s with opts := s.opts.set (h - 1) ⟨true, clampQ s.arg⟩, status := 0#32 } := by
  rw [execOptSetq, if_pos hl]
  rfl

theorem execOptSetq_of_not_live (hl : isLive h s = false) : execOptSetq h s = raiseInvalidPtr h s := by
  rw [execOptSetq, hl, if_neg Bool.false_ne_true]

theorem raiseInvalidPtr_eq (h : Nat) (s : State) :
    raiseInvalidPtr h s =
      .next { s with status := Config.stErrInvalidPtr, staleUsed := s.staleUsed || isStale h s } := rfl

end

/-! ### The statements -/

/-- Settles O7: a free slot with none below it is the least one, and the two cases are those of `leastFree`. -/
theorem createTakesTheLeastFreeSlot : Obligations.CreateTakesTheLeastFreeSlot := by
  unfold Obligations.CreateTakesTheLeastFreeSlot
  refine ⟨by decide, fun s => ?_⟩
  rw [exec_optCreate]
  refine ⟨fun k hk hfree hbelow => ?_, execOptCreate_of_full, fun hlen _ => execOptCreate_result_ne_zero hlen⟩
  exact execOptCreate_of_leastFree (leastFree_some_iff.2 ⟨hk, hfree, hbelow⟩)

/-- Settles O8: a live handle's slot is replaced by a free one, any other handle raises ST_ERR_INVALIDPTR. -/
theorem destroyFreesALiveSlot : Obligations.DestroyFreesALiveSlot := by
  unfold Obligations.DestroyFreesALiveSlot
  intro h s
  rw [exec_optDestroy]
  refine ⟨cmdWord_toNat (by decide), fun hl => ?_, fun hl => ?_⟩
  · exact ⟨_, execOptDestroy_of_live hl, rfl, isLive_set_opts (o := ⟨false, 0#32⟩) hl rfl⟩
  · exact ⟨_, (execOptDestroy_of_not_live hl).trans (raiseInvalidPtr_eq h s)⟩

/-- Settles O9: a live handle's slot is replaced by a valid one, any other handle raises ST_ERR_INVALIDPTR. -/
theorem setQualityStoresTheClampedWord : Obligations.SetQualityStoresTheClampedWord := by
  unfold Obligations.SetQualityStoresTheClampedWord
  intro h s
  rw [exec_optSetq]
  refine ⟨cmdWord_toNat (by decide), fun hl => ?_, fun hl => ?_⟩
  · exact ⟨_, execOptSetq_of_live hl, rfl, isLive_set_opts (o := ⟨true, clampQ s.arg⟩) hl rfl⟩
  · exact ⟨_, (execOptSetq_of_not_live hl).trans (raiseInvalidPtr_eq h s)⟩

end Sys2Proof.Machine
end

section
/-! PROOFS. The statements about ENC and the encoder (41_encoder.md R90 to R95): the command, the endpoints, the flat
block, the quantizer and the choice of the mode. -/

namespace Sys2Proof.Machine

open Sys2Proof.Safety

/-! ### ENC (41_encoder.md R90) -/

section
variable {h : Nat} {s : State}

theorem exec_enc (h : Nat) (s : State) : exec (.enc h) s = execEnc h s := rfl

theorem execEnc_of_resolves (hr : h = 0 ∨ isLive h s = true) :
    execEnc h s = .next { s with cb := encodeBlock s.blk, status := 0#32 } := by
  obtain ⟨q, hq⟩ := resolveOptions_some_of hr
  rw [execEnc, hq]
  rfl

theorem execEnc_of_stale (h0 : h ≠ 0) (hl : isLive h s = false) : execEnc h s = raiseInvalidPtr h s := by
  rw [execEnc, (resolveOptions_none_iff h s).2 ⟨h0, hl⟩]

end

/-- Settles O13: a handle that resolves lets the encoder run, a stale one raises ST_ERR_INVALIDPTR. -/
theorem encWritesTheEncodedBlock : Obligations.EncWritesTheEncodedBlock := by
  unfold Obligations.EncWritesTheEncodedBlock
  intro h s
  rw [exec_enc]
  refine ⟨cmdWord_toNat (by decide), execEnc_of_resolves, fun h0 hl => ?_⟩
  exact ⟨_, (execEnc_of_stale h0 hl).trans (raiseInvalidPtr_eq h s)⟩

/-! ### The endpoints (41_encoder.md R91) -/

theorem minSample_eq {s : Block} {lo : Byte} (hlo : IsLeastSample s lo) : minSample s = lo :=
  isLeastSample_unique (minSample_isLeast s) hlo

theorem maxSample_eq {s : Block} {hi : Byte} (hhi : IsGreatestSample s hi) : maxSample s = hi :=
  isGreatestSample_unique (maxSample_isGreatest s) hhi

/-- In each of the encoder's three branches the output packs the two extremes. -/
theorem encodeBlock_packs_extremes (s : Block) :
    ∃ idx, encodeBlock s = packBlock (minSample s) (maxSample s) idx ∨
      encodeBlock s = packBlock (maxSample s) (minSample s) idx := by
  by_cases hflat : minSample s = maxSample s
  · exact ⟨_, .inl (by rw [encodeBlock_flat hflat, ← hflat])⟩
  · rw [encodeBlock_of_ne hflat]
    split
    · exact ⟨_, .inl rfl⟩
    · exact ⟨_, .inr rfl⟩

/-- Settles O22, from the endpoints that the encoder packs. -/
theorem encoderEndpointsAreTheExtremes : Obligations.EncoderEndpointsAreTheExtremes := by
  unfold Obligations.EncoderEndpointsAreTheExtremes
  intro s lo hi hlo hhi
  obtain ⟨idx, hpack⟩ := encodeBlock_packs_extremes s
  rw [minSample_eq hlo, maxSample_eq hhi] at hpack
  rcases hpack with hpack | hpack
  · exact .inl (hpack ▸ ⟨packBlock_zero lo hi idx, packBlock_one lo hi idx⟩)
  · exact .inr (hpack ▸ ⟨packBlock_zero hi lo idx, packBlock_one hi lo idx⟩)

/-! ### The flat block (41_encoder.md R92) -/

theorem replicate_isLeast (v : Byte) : IsLeastSample (Vector.replicate 16 v) v :=
  ⟨⟨0, by simp⟩, fun i => by simp⟩

theorem replicate_isGreatest (v : Byte) : IsGreatestSample (Vector.replicate 16 v) v :=
  ⟨⟨0, by simp⟩, fun i => by simp⟩

theorem encodeBlock_replicate (v : Byte) :
    encodeBlock (Vector.replicate 16 v) = packBlock v v (Vector.replicate 16 0) := by
  have hmin := minSample_eq (replicate_isLeast v)
  have hmax := maxSample_eq (replicate_isGreatest v)
  rw [encodeBlock_flat (hmin.trans hmax.symm), hmin]

/-- Codes that are all 0 leave the six index bytes 0. -/
theorem packBlock_codes_zero (a b : Byte) :
    packBlock a b (Vector.replicate 16 0) = #v[a, b, 0#8, 0#8, 0#8, 0#8, 0#8, 0#8] := rfl

/-- Unpacking undoes packing (30_encoding.md R57). -/
theorem unpackIdx_packBlock (a b : Byte) (idx : Codes) : unpackIdx (packBlock a b idx) = idx := by
  refine Vector.ext fun i hi => Fin.ext ?_
  rw [unpackIdx_getElem _ i hi, bytesValue_packBlock, Nat.pow_mul]
  exact codesValue_digit idx i hi

/-- Every sample of a decoded block is the entry that its code selects. -/
theorem decodeBlock_packBlock_getElem (a b : Byte) (idx : Codes) (i : Nat) (hi : i < 16) :
    (decodeBlock (packBlock a b idx))[i] = (table a b)[idx[i]] := by
  simp only [decodeBlock_getElem _ i hi, packBlock_zero, packBlock_one, unpackIdx_packBlock]

theorem decodeBlock_packBlock_codes_zero (a b : Byte) :
    decodeBlock (packBlock a b (Vector.replicate 16 0)) = Vector.replicate 16 a := by
  refine Vector.ext fun i hi => ?_
  simp only [decodeBlock_packBlock_getElem a b _ i hi, Vector.getElem_replicate]
  exact table_zero a b

/-- Settles O23: the flat branch packs the value twice with all codes 0, and code 0 selects the first endpoint. -/
theorem flatBlockIsExact : Obligations.FlatBlockIsExact := by
  unfold Obligations.FlatBlockIsExact
  intro v
  rw [encodeBlock_replicate]
  exact ⟨packBlock_codes_zero v v, modeOf_six le_rfl, decodeBlock_packBlock_codes_zero v v⟩

/-! ### The quantizer (41_encoder.md R93) -/

/-- In the ascending list of all numbers below `n`, what stands at or after `r` is not below it. -/
theorem le_of_mem_finRange_suffix {n : Nat} {l1 l2 : List (Fin n)} {r i : Fin n}
    (hl : List.finRange n = l1 ++ r :: l2) (hi : i ∈ r :: l2) : r ≤ i := by
  have hsorted : (l1 ++ r :: l2).Pairwise (· < ·) := hl ▸ List.pairwise_lt_finRange n
  obtain ⟨hafter, -⟩ := List.pairwise_cons.1 (List.pairwise_append.1 hsorted).2.1
  rcases List.mem_cons.1 hi with rfl | hi
  · exact le_rfl
  · exact (hafter i hi).le

theorem nearest_isNearest (t : Table) (x : Byte) : IsNearest t x (nearest t x) := by
  obtain ⟨⟨-, hmin⟩, hfirst⟩ := argmin_foldl (fun j : Code => absDiff x (t[j])) (List.finRange 8) 0
  refine ⟨fun j => hmin j (List.mem_finRange j), fun i hi => ?_⟩
  rcases hfirst with ⟨hzero, -⟩ | ⟨l1, l2, hsplit, -, hbefore⟩
  · exact hzero.trans_le (Fin.zero_le i)
  · have hmem : i ∈ l1 ++ nearest t x :: l2 := hsplit ▸ List.mem_finRange i
    rcases List.mem_append.1 hmem with hi1 | hi2
    · exact absurd (hi (nearest t x)) (Nat.not_le.2 (hbefore i hi1))
    · exact le_of_mem_finRange_suffix hsplit hi2

/-- Settles O24: the scan's result is at the least distance, and every code before it is farther. -/
theorem quantizerTakesTheLeastNearestCode : Obligations.QuantizerTakesTheLeastNearestCode :=
  nearest_isNearest

/-! ### The choice of the mode (41_encoder.md R94, R95) -/

/-- Codes that are the nearest of a table are the quantizer's. -/
theorem quantize_eq_ofFn {t : Table} {s : Block} {idx : Fin 16 → Code}
    (hidx : ∀ i : Fin 16, IsNearest t (s[i]) (idx i)) :
    quantize t s = Vector.ofFn idx := by
  refine Vector.ext fun i hi => ?_
  rw [quantize_getElem t s i hi, Vector.getElem_ofFn]
  exact isNearest_unique (nearest_isNearest t _) (hidx ⟨i, hi⟩)

theorem squaredError_ofFn (t : Table) (s : Block) (idx : Fin 16 → Code) :
    (squaredError t s (Vector.ofFn idx) : Int) = sumOfSquares t s idx := by
  rw [squaredError_eq]
  simp only [Fin.getElem_fin, Vector.getElem_ofFn, Fin.eta]

/-- `EncodeBlock` of a block that is not flat, in the spec's words for the extremes, the codes and the errors. -/
theorem encodeBlock_eq_of_nearest {s : Block} {lo hi : Byte} {idx8 idx6 : Fin 16 → Code}
    (hlo : IsLeastSample s lo) (hhi : IsGreatestSample s hi) (hlt : lo.toNat < hi.toNat)
    (h8 : ∀ i : Fin 16, IsNearest (table hi lo) (s[i]) (idx8 i))
    (h6 : ∀ i : Fin 16, IsNearest (table lo hi) (s[i]) (idx6 i)) :
    encodeBlock s =
      if sumOfSquares (table lo hi) s idx6 < sumOfSquares (table hi lo) s idx8 then
        packBlock lo hi (Vector.ofFn idx6)
      else packBlock hi lo (Vector.ofFn idx8) := by
  have hne : minSample s ≠ maxSample s := by
    rw [minSample_eq hlo, maxSample_eq hhi]
    rintro rfl
    exact lt_irrefl _ hlt
  rw [encodeBlock_of_ne hne, minSample_eq hlo, maxSample_eq hhi, quantize_eq_ofFn h6, quantize_eq_ofFn h8]
  refine if_congr ?_ rfl rfl
  rw [← squaredError_ofFn, ← squaredError_ofFn, Nat.cast_lt]

/-- Settles O25: the two cases are the branches of the encoder, and the order of the endpoints packed is the mode. -/
theorem encoderChoosesTheBetterMode : Obligations.EncoderChoosesTheBetterMode := by
  unfold Obligations.EncoderChoosesTheBetterMode
  intro s lo hi idx8 idx6 hlo hhi hlt h8 h6
  rw [encodeBlock_eq_of_nearest hlo hhi hlt h8 h6]
  constructor
  · intro hless
    rw [if_pos hless, packBlock_zero, packBlock_one]
    exact ⟨rfl, modeOf_six hlt.le⟩
  · intro hle
    rw [if_neg (not_lt.2 hle), packBlock_zero, packBlock_one]
    exact ⟨rfl, modeOf_eight hlt⟩

end Sys2Proof.Machine
end

section
/-! PROOFS. The statement about DEC (42_decoder.md R100): the command and the block it decodes. -/

namespace Sys2Proof.Machine

section
variable {h : Nat} {s : State}

theorem exec_dec (h : Nat) (s : State) : exec (.dec h) s = execDec h s := rfl

theorem execDec_of_resolves (hr : h = 0 ∨ isLive h s = true) :
    execDec h s = .next { s with blk := decodeBlock s.cb, status := 0#32 } := by
  obtain ⟨q, hq⟩ := resolveOptions_some_of hr
  rw [execDec, hq]
  rfl

theorem execDec_of_stale (h0 : h ≠ 0) (hl : isLive h s = false) : execDec h s = raiseInvalidPtr h s := by
  rw [execDec, (resolveOptions_none_iff h s).2 ⟨h0, hl⟩]

end

/-- Settles O14: a handle that resolves lets the decoder run, whose samples are the table entries that the codes select;
a stale one raises ST_ERR_INVALIDPTR. -/
theorem decWritesTheDecodedBlock : Obligations.DecWritesTheDecodedBlock := by
  unfold Obligations.DecWritesTheDecodedBlock
  intro h s
  rw [exec_dec]
  refine ⟨cmdWord_toNat (by decide), fun hr => ?_, fun h0 hl => ?_⟩
  · exact ⟨_, execDec_of_resolves hr, rfl, fun i => decodeBlock_getElem s.cb i i.isLt⟩
  · exact ⟨_, (execDec_of_stale h0 hl).trans (raiseInvalidPtr_eq h s)⟩

end Sys2Proof.Machine
end

section
/-! PROOFS. The statements about loads and stores (43_block_io.md R105, R106, R108 to R111): what each command does when
the addresses it accesses are backed. -/

namespace Sys2Proof.Machine

/-! ### Loads (43_block_io.md R105, R106, R108) -/

section
variable {s : State}

theorem exec_ext1 (s : State) : exec .ext1 s = execExt1 s := rfl

theorem exec_ext4 (s : State) : exec .ext4 s = execExt4 s := rfl

theorem exec_ldcb (s : State) : exec .ldcb s = execLdcb s := rfl

/-- A check over addresses given by a number below `n`. -/
theorem onBacked_map_finRange {n : Nat} {addr : Fin n → Word} (hb : ∀ i, s.isBacked (addr i) = true) (t : Result) :
    onBacked ((List.finRange n).map addr) s t = t :=
  onBacked_of_backed (List.forall_mem_map.2 fun i _ => hb i) t

theorem execExt1_of_backed (hb : ∀ i, s.isBacked (ext1Addr s i) = true) :
    execExt1 s = .next { s with blk := Vector.ofFn fun i => s.readByte (ext1Addr s i), status := 0#32 } :=
  onBacked_map_finRange hb _

theorem execExt4_of_backed (hb : ∀ i, s.isBacked (ext4Addr s i) = true) :
    execExt4 s = .next { s with blk := Vector.ofFn fun i => s.readByte (ext4Addr s i), status := 0#32 } :=
  onBacked_map_finRange hb _

theorem execLdcb_of_backed (hb : ∀ j, s.isBacked (ldcbAddr s j) = true) :
    execLdcb s = .next { s with cb := Vector.ofFn fun j => s.readByte (ldcbAddr s j), status := 0#32 } :=
  onBacked_map_finRange hb _

end

/-- A row-major index gives back its row and its column. -/
theorem rowCol_div_mod (r : Nat) {c : Nat} (hc : c < 4) : (4 * r + c) / 4 = r ∧ (4 * r + c) % 4 = c := by
  omega

theorem ext1Addr_eq (s : State) (i : Fin 16) :
    ext1Addr s i = BitVec.ofNat 32 (s.srcAddr.toNat + i.val / 4 * s.srcStride.toNat + i.val % 4) :=
  addrAt_eq ..

theorem ext4Addr_eq (s : State) (i : Fin 16) :
    ext4Addr s i = BitVec.ofNat 32 (s.srcAddr.toNat + i.val / 4 * s.srcStride.toNat + 4 * (i.val % 4)) :=
  addrAt_eq ..

theorem ldcbAddr_eq (s : State) (j : Fin 8) : ldcbAddr s j = BitVec.ofNat 32 (s.srcAddr.toNat + j.val) :=
  add_ofNat ..

/-- Settles O32: sample `i` comes from row `i / 4` and column `i % 4` of the strided block. -/
theorem ext1LoadsTheStridedBlock : Obligations.Ext1LoadsTheStridedBlock := by
  unfold Obligations.Ext1LoadsTheStridedBlock
  refine ⟨by decide, fun s => ?_⟩
  intro addr hb
  have hback (i : Fin 16) : s.isBacked (ext1Addr s i) = true := by
    rw [ext1Addr_eq]
    exact hb (i / 4) (i % 4) (by omega) (by omega)
  refine ⟨_, (exec_ext1 s).trans (execExt1_of_backed hback), rfl, fun r c hr hc => ?_⟩
  obtain ⟨hrow, hcol⟩ := rowCol_div_mod r hc
  rw [Vector.getElem_ofFn, ext1Addr_eq, hrow, hcol]

/-- Settles O33: sample `i` comes from byte 0 of the texel in row `i / 4` and column `i % 4`. -/
theorem ext4LoadsTheRedChannel : Obligations.Ext4LoadsTheRedChannel := by
  unfold Obligations.Ext4LoadsTheRedChannel
  refine ⟨by decide, fun s => ?_⟩
  intro addr hb
  have hback (i : Fin 16) : s.isBacked (ext4Addr s i) = true := by
    rw [ext4Addr_eq]
    exact hb (i / 4) (i % 4) (by omega) (by omega)
  refine ⟨_, (exec_ext4 s).trans (execExt4_of_backed hback), rfl, fun r c hr hc => ?_⟩
  obtain ⟨hrow, hcol⟩ := rowCol_div_mod r hc
  rw [Vector.getElem_ofFn, ext4Addr_eq, hrow, hcol]
  rfl -- the R byte is at offset 0 of its texel

/-- Settles O34: byte `j` comes from `j` bytes after SRC_ADDR. -/
theorem ldcbLoadsTheCompressedBlock : Obligations.LdcbLoadsTheCompressedBlock := by
  unfold Obligations.LdcbLoadsTheCompressedBlock
  refine ⟨by decide, fun s => ?_⟩
  intro addr hb
  have hback (j : Fin 8) : s.isBacked (ldcbAddr s j) = true := by
    rw [ldcbAddr_eq]
    exact hb j j.isLt
  refine ⟨_, (exec_ldcb s).trans (execLdcb_of_backed hback), rfl, fun j hj => ?_⟩
  rw [Vector.getElem_ofFn, ldcbAddr_eq]

/-! ### Stores (43_block_io.md R109 to R111) -/

theorem exec_stcb (s : State) : exec .stcb s = execStcb s := rfl

theorem exec_stb1 (s : State) : exec .stb1 s = execStb1 s := rfl

theorem exec_stb4 (s : State) : exec .stb4 s = execStb4 s := rfl

/-- Bytes for the `n` consecutive addresses from `base`: the cells of each storing command. -/
def consecutiveCells {n : Nat} (base : Word) (byte : Fin n → Byte) : List StoreCell :=
  (List.finRange n).map fun k => (base + BitVec.ofNat 32 k.val, byte k)

theorem execStcb_eq (s : State) : execStcb s = storeAll (consecutiveCells s.dstAddr fun j : Fin 8 => s.cb[j]) s := rfl

theorem execStb1_eq (s : State) : execStb1 s = storeAll (consecutiveCells s.dstAddr fun i : Fin 16 => s.blk[i]) s := rfl

theorem execStb4_eq (s : State) :
    execStb4 s = storeAll (consecutiveCells s.dstAddr fun k : Fin 64 => s.blk[k.val / 4]) s := rfl

section
variable {n : Nat} {base : Word} {byte : Fin n → Byte}

theorem consecutiveCells_addrs :
    (consecutiveCells base byte).map Prod.fst =
      (List.finRange n).map fun k : Fin n => base + BitVec.ofNat 32 k.val := by
  rw [consecutiveCells, List.map_map, Function.comp_def]

theorem mem_consecutiveCells_addrs {a : Word} :
    a ∈ (consecutiveCells base byte).map Prod.fst ↔ ∃ k < n, a = base + BitVec.ofNat 32 k := by
  simp [consecutiveCells_addrs, Fin.exists_iff, eq_comm]

theorem mem_consecutiveCells {k : Nat} (hk : k < n) :
    (base + BitVec.ofNat 32 k, byte ⟨k, hk⟩) ∈ consecutiveCells base byte :=
  List.mem_map.2 ⟨⟨k, hk⟩, List.mem_finRange _, rfl⟩

/-- A store of at most 2^32 bytes at consecutive backed addresses: it completes, each byte reads as stored, and every
other one as before. -/
theorem storeAll_consecutiveCells {s : State} (hn : n ≤ 2 ^ 32) (hw : s.mem.wf = true)
    (hb : ∀ k < n, s.isBacked (base + BitVec.ofNat 32 k) = true) :
    ∃ t, storeAll (consecutiveCells base byte) s = .next t ∧ t = { s with mem := t.mem, status := 0#32 } ∧
      (∀ (k : Nat) (hk : k < n), t.readByte (base + BitVec.ofNat 32 k) = byte ⟨k, hk⟩) ∧
      ∀ a, (∀ k < n, a ≠ base + BitVec.ofNat 32 k) → t.readByte a = s.readByte a := by
  have hnodup : ((consecutiveCells base byte).map Prod.fst).Nodup := consecutiveCells_addrs ▸ offsets_nodup base hn
  have hback : ∀ a ∈ (consecutiveCells base byte).map Prod.fst, s.isBacked a = true := by
    intro a ha
    obtain ⟨k, hk, rfl⟩ := mem_consecutiveCells_addrs.1 ha
    exact hb k hk
  obtain ⟨t, hnext, hregs, hstored, hother⟩ := storeAll_ok hw hnodup hback
  refine ⟨t, hnext, hregs, fun k hk => hstored _ (mem_consecutiveCells hk), fun a ha => hother a fun hmem => ?_⟩
  obtain ⟨k, hk, hak⟩ := mem_consecutiveCells_addrs.1 hmem
  exact ha k hk hak

end

/-- Settles O35: the cells of STCB are the bytes of CB at consecutive addresses. -/
theorem stcbStoresTheCompressedBlock : Obligations.StcbStoresTheCompressedBlock := by
  unfold Obligations.StcbStoresTheCompressedBlock
  refine ⟨by decide, fun s hw => ?_⟩
  simp only [← add_ofNat]
  intro hb
  rw [exec_stcb, execStcb_eq]
  exact storeAll_consecutiveCells (by norm_num) hw hb

/-- Settles O36: the cells of STB1 are the samples of BLK at consecutive addresses. -/
theorem stb1StoresTheDenseBlock : Obligations.Stb1StoresTheDenseBlock := by
  unfold Obligations.Stb1StoresTheDenseBlock
  refine ⟨by decide, fun s hw => ?_⟩
  simp only [← add_ofNat]
  intro hb
  rw [exec_stb1, execStb1_eq]
  exact storeAll_consecutiveCells (by norm_num) hw hb

/-- Settles O37: the cells of STB4 are 64 consecutive bytes, and byte `k` is channel `k % 4` of texel `k / 4`. -/
theorem stb4StoresTheReplicatedBlock : Obligations.Stb4StoresTheReplicatedBlock := by
  unfold Obligations.Stb4StoresTheReplicatedBlock
  refine ⟨by decide, fun s hw => ?_⟩
  simp only [Nat.add_assoc, ← add_ofNat]
  intro hb
  have hback : ∀ k < 64, s.isBacked (s.dstAddr + BitVec.ofNat 32 k) = true := by
    intro k hk
    rw [← Nat.div_add_mod k 4]
    exact hb (k / 4) (k % 4) (by omega) (by omega)
  rw [exec_stb4, execStb4_eq]
  obtain ⟨t, hnext, hregs, hstored, hother⟩ := storeAll_consecutiveCells (by norm_num) hw hback
  refine ⟨t, hnext, hregs, fun i n hi hn => ?_, fun a ha => hother a fun k hk => ?_⟩
  · obtain ⟨htexel, -⟩ := rowCol_div_mod i hn
    rw [hstored (4 * i + n) (by omega)]
    simp only [htexel]
  · rw [← Nat.div_add_mod k 4]
    exact ha (k / 4) (k % 4) (by omega) (by omega)

end Sys2Proof.Machine
end

section
/-! PROOFS. The statements about failures (60_exceptions.md R121, R122): what a failing word written to CMD changes, and
the cause of every status. Both follow the cases of `exec_status`, which tells the endings of a command apart. -/

namespace Sys2Proof.Machine

section
variable {w : Word} {i : Instr} {k : Nat} {s t : State}

/-- What a word written to CMD does when it ends: its command's effect, or ST_FAIL and the mark of an illegal word. -/
theorem issue_next (h : issue w s = .next t) :
    (∃ i, decode w = .ok i ∧ exec i s = .next t) ∨
      ∃ e, decode w = .error e ∧ t = { s with illegalUsed := true, status := Config.stFail } := by
  rcases issue_cases w s with ⟨i, hd, hi⟩ | ⟨e, hd, he⟩
  · exact .inl ⟨i, hd, hi ▸ h⟩
  · exact .inr ⟨e, hd, raise_next.1 (he ▸ h)⟩

/-- OPT_CREATE is none of the commands that can be at fault for their handle. -/
theorem ne_optCreate_of_handle (hi : i = .optDestroy k ∨ i = .optSetq k ∨ k ≠ 0 ∧ (i = .enc k ∨ i = .dec k)) :
    i ≠ .optCreate := by
  rintro rfl
  simp at hi

/-- A command whose handle meets its condition is not at fault for it. -/
theorem isLive_of_handle (hslot : ∀ k, i = .optDestroy k ∨ i = .optSetq k → isLive k s = true)
    (hcodec : ∀ k, i = .enc k ∨ i = .dec k → k = 0 ∨ isLive k s = true)
    (hi : i = .optDestroy k ∨ i = .optSetq k ∨ k ≠ 0 ∧ (i = .enc k ∨ i = .dec k)) : isLive k s = true := by
  rcases hi with hd | hq | ⟨h0, hc⟩
  · exact hslot k (.inl hd)
  · exact hslot k (.inr hq)
  · exact (hcodec k hc).resolve_left h0

end

/-- Settles O42: a command fails as OPT_CREATE without a free slot, which also clears RESULT, or as another command at
its handle; an illegal word is no OPT_CREATE either. -/
theorem failingCommandChangesOnlyStatus : Obligations.FailingCommandChangesOnlyStatus := by
  unfold Obligations.FailingCommandChangesOnlyStatus
  intro w s t h hfail
  rcases issue_next h with ⟨i, hd, hi⟩ | ⟨e, hd, rfl⟩
  · rcases exec_status hi with ⟨hok, -⟩ | ⟨rfl, -, rfl⟩ | ⟨k, -, hik, rfl⟩
    · exact absurd hok hfail
    · exact ⟨_, _, by rw [if_pos hd]⟩
    · exact ⟨_, _, by rw [if_neg (by simpa [hd] using ne_optCreate_of_handle hik)]⟩
  · exact ⟨_, _, by rw [if_neg (by simp [hd])]⟩

/-- Settles O43: each ending of a command has its own status, and its cause excludes the causes of the others. -/
theorem everyStatusHasItsCause : Obligations.EveryStatusHasItsCause := by
  unfold Obligations.EveryStatusHasItsCause
  intro w s t h
  rcases issue_next h with ⟨i, hd, hi⟩ | ⟨e, hd, rfl⟩
  · simp only [hd, Except.ok.injEq, reduceCtorEq, exists_false, iff_false]
    rcases exec_status hi with ⟨hst, -, hcreate, hslot, hcodec⟩ | ⟨hi, hfull, ht⟩ | ⟨k, hl, hik, ht⟩
    · rw [hst]
      refine ⟨iff_of_false (by decide) hcreate, fun hne => absurd hne (by decide),
        iff_of_false (by decide) ?_, by decide, .inl rfl⟩
      rintro ⟨k, hl, hik⟩
      exact absurd (isLive_of_handle hslot hcodec hik) (by simp [hl])
    · have hst : t.status = Config.stErrNewMem := by rw [ht]
      rw [hst]
      exact ⟨iff_of_true rfl ⟨hi, hfull⟩, fun _ => by rw [ht],
        iff_of_false (by decide) fun ⟨_, _, hik⟩ => ne_optCreate_of_handle hik hi, by decide, .inr (.inl rfl)⟩
    · have hst : t.status = Config.stErrInvalidPtr := by rw [ht]
      rw [hst]
      exact ⟨iff_of_false (by decide) fun ⟨hi, _⟩ => ne_optCreate_of_handle hik hi,
        fun hne => absurd hne (by decide), iff_of_true rfl ⟨k, hl, hik⟩, by decide, .inr (.inr (.inl rfl))⟩
  · simp [hd, Config.stErrNewMem, Config.stErrInvalidPtr, Config.stFail]

end Sys2Proof.Machine
end

section
/-! PROOFS. The statements about the encodings of 30_encoding.md: the command word (R50 to R52, R71), the index field of a
compressed block (R57, R59), the interpolation table (R64) and the quality scalar (R67, R68). -/

namespace Sys2Proof

/-! ### Command words (30_encoding.md R50 to R52, R71) -/

theorem handleFits_iff (h : Nat) : handleFits h = true ↔ h ≤ 255 := by rw [handleFits, decide_eq_true_eq]

/-- Settles O1: the decoder reads the opcode and the handle that the encoder put in the word, and maps them back. -/
theorem encodedCommandDecodesBack : Obligations.EncodedCommandDecodesBack := by
  unfold Obligations.EncodedCommandDecodesBack
  intro i hwf
  cases i with
  | optDestroy h | optSetq h | enc h | dec h => exact decode_cmdWord (by decide) ((handleFits_iff h).1 hwf)
  | optCreate | ext1 | ext4 | ldcb | stcb | stb1 | stb4 => exact decode_cmdWord (by decide) (Nat.zero_le 255)

/-- A word with a zero upper half is the word of its own opcode and handle. -/
theorem cmdWord_fields {w : Word} (hz : zeroField w = 0) : cmdWord (opcField w) (handleField w) = w := by
  have hupper := (zeroField_eq_zero w).1 hz
  apply BitVec.eq_of_toNat_eq
  rw [cmdWord, BitVec.toNat_ofNat, opcField_eq, handleField_eq]
  omega

/-- Settles O2: a legal word is the word of its fields, which are those of the command it decodes to. -/
theorem legalWordIsTheEncodingOfItsCommand : Obligations.LegalWordIsTheEncodingOfItsCommand := by
  unfold Obligations.LegalWordIsTheEncodingOfItsCommand
  intro w i hd
  obtain ⟨hz, hopc⟩ := decode_ok hd
  have hh : handleField w ≤ 255 := by rw [handleField_eq]; omega
  obtain ⟨henc, hwf⟩ := decodeOpc_ok hopc hh
  exact ⟨hwf, henc.trans (cmdWord_fields hz)⟩

/-- Settles O4, word by word. -/
theorem wordsOfTheSpecDecode : Obligations.WordsOfTheSpecDecode := by
  unfold Obligations.WordsOfTheSpecDecode
  decide

namespace Machine

/-! ### The index field (30_encoding.md R57, R59) -/

theorem unpackIdx_digit (cb : CBlock) (i : Nat) (hi : i < 16) :
    ((unpackIdx cb)[i]).val = bytesValue (cb.toList.drop 2) / 8 ^ i % 8 := by
  rw [unpackIdx_getElem cb i hi, Nat.pow_mul]
  rfl

/-- The codes of a compressed block give back its index field. -/
theorem codesValue_unpackIdx (cb : CBlock) : codesValue (unpackIdx cb) = bytesValue (cb.toList.drop 2) := by
  refine eq_of_digits (b := 8) 16 _ _ (codesValue_lt _) ?_ fun i hi => ?_
  · exact lt_of_lt_of_eq (bytesValue_lt _) (by norm_num [List.length_drop, Vector.length_toList])
  · rw [codesValue_digit _ i hi, unpackIdx_digit cb i hi]

/-- Byte `j` of the index field is index byte `j` of the number the bytes give. -/
theorem indexByte_bytesValue (cb : CBlock) (j : Nat) (hj : j < 6) :
    indexByte (bytesValue (cb.toList.drop 2)) j = cb[j + 2] := by
  apply BitVec.eq_of_toNat_eq
  rw [indexByte_toNat, bytesValue_digit _ j (by simpa using hj)]
  simp [Nat.add_comm]

/-- Settles O17: in both directions the digits of the index field are kept, and equal digits make equal numbers. -/
theorem indexFieldPackingIsABijection : Obligations.IndexFieldPackingIsABijection := by
  unfold Obligations.IndexFieldPackingIsABijection
  refine ⟨unpackIdx_packBlock, fun bytes => Vector.ext fun j hj => ?_⟩
  match j with
  | 0 => exact packBlock_zero ..
  | 1 => exact packBlock_one ..
  | j + 2 => rw [packBlock_index _ _ _ j (by omega), codesValue_unpackIdx, indexByte_bytesValue _ j (by omega)]

/-- A bit of an index byte is the bit of the index field at that byte. -/
theorem indexByte_getLsbD (v j : Nat) {k : Nat} (hk : k < 8) : (indexByte v j).getLsbD k = v.testBit (8 * j + k) := by
  rw [indexByte, BitVec.getLsbD_ofNat, decide_eq_true hk, Bool.true_and, Nat.testBit_div_two_pow, Nat.add_comm]

/-- A bit of a code is the bit of the index field at that code. -/
theorem code_testBit (idx : Codes) (i : Fin 16) {k : Nat} (hk : k < 3) :
    (idx[i]).val.testBit k = (codesValue idx).testBit (3 * i.val + k) := by
  rw [Fin.getElem_fin, ← codesValue_digit idx i i.isLt, show (8 : Nat) = 2 ^ 3 from rfl, ← Nat.pow_mul,
    Nat.testBit_mod_two_pow, decide_eq_true hk, Bool.true_and, Nat.testBit_div_two_pow, Nat.add_comm]

/-- Settles O18: both sides are one bit of the index field, found by its byte and by its code. -/
theorem indexBitsLieAsTabled : Obligations.IndexBitsLieAsTabled := by
  unfold Obligations.IndexBitsLieAsTabled
  refine fun a b idx => ⟨packBlock_zero a b idx, packBlock_one a b idx, fun i k hk => ?_⟩
  simp only [Nat.add_comm 2]
  rw [packBlock_index a b idx _ (by omega), indexByte_getLsbD _ _ (by omega), Nat.div_add_mod, code_testBit idx i hk]

/-! ### The interpolation table (30_encoding.md R64) -/

/-- The levels of the 8-level mode rise from the smaller endpoint to the larger. -/
theorem level8_mono {a b j k : Nat} (hlt : b < a) (hjk : j ≤ k) (hk : k ≤ 7) :
    b ≤ level8 3 a b j ∧ level8 3 a b j ≤ level8 3 a b k ∧ level8 3 a b k ≤ a := by
  rw [level8_eq hlt.le (hjk.trans hk), level8_eq hlt.le hk]
  have hmono : j * (a - b) ≤ k * (a - b) := Nat.mul_le_mul_right _ hjk
  have htop : k * (a - b) ≤ 7 * (a - b) := Nat.mul_le_mul_right _ hk
  omega

/-- The levels of the 6-level mode rise from the smaller endpoint to the larger. -/
theorem level6_mono {a b j k : Nat} (hle : a ≤ b) (hjk : j ≤ k) (hk : k ≤ 5) :
    a ≤ level6 2 a b j ∧ level6 2 a b j ≤ level6 2 a b k ∧ level6 2 a b k ≤ b := by
  rw [level6_eq hle (hjk.trans hk), level6_eq hle hk]
  have hmono : j * (b - a) ≤ k * (b - a) := Nat.mul_le_mul_right _ hjk
  have htop : k * (b - a) ≤ 5 * (b - a) := Nat.mul_le_mul_right _ hk
  omega

/-- A code's entry in an 8-level table is a level: code 0 the last, code 1 the first, each other code `8 - i`. -/
theorem entry8_is_level {a b i : Nat} (hi : i ≤ 7) : ∃ k ≤ 7, entry8 3 a b i = level8 3 a b k := by
  match i with
  | 0 => exact ⟨7, le_rfl, (level8_seven a b).symm⟩
  | 1 => exact ⟨0, by decide, (level8_zero a b).symm⟩
  | i + 2 => exact ⟨8 - (i + 2), by omega, entry8_eq_level8 (by omega) hi⟩

/-- An unreserved code's entry in a 6-level table is a level. -/
theorem entry6_is_level {a b i : Nat} (hi : i ≤ 5) : ∃ k ≤ 5, entry6 2 a b i = level6 2 a b k := by
  match i with
  | 0 => exact ⟨0, by decide, (level6_zero a b).symm⟩
  | 1 => exact ⟨5, le_rfl, (level6_five a b).symm⟩
  | i + 2 => exact ⟨i + 2 - 1, by omega, entry6_eq_level6 (by omega) hi⟩

theorem table_between_eight {a b : Byte} (hlt : b.toNat < a.toNat) (i : Code) :
    b.toNat ≤ ((table a b)[i]).toNat ∧ ((table a b)[i]).toNat ≤ a.toNat := by
  obtain ⟨k, hk, hlevel⟩ := entry8_is_level (a := a.toNat) (b := b.toNat) (i := i) (by omega)
  obtain ⟨hlow, -, hhigh⟩ := level8_mono hlt le_rfl hk
  rw [table_toNat_eight hlt, hlevel]
  exact ⟨hlow, hhigh⟩

theorem table_between_six {a b : Byte} (hle : a.toNat ≤ b.toNat) {i : Code} (hi : i.val ≤ 5) :
    a.toNat ≤ ((table a b)[i]).toNat ∧ ((table a b)[i]).toNat ≤ b.toNat := by
  obtain ⟨k, hk, hlevel⟩ := entry6_is_level (a := a.toNat) (b := b.toNat) hi
  obtain ⟨hlow, -, hhigh⟩ := level6_mono hle le_rfl hk
  rw [table_toNat_six hle, hlevel]
  exact ⟨hlow, hhigh⟩

/-- Every entry but the two constants of a 6-level table lies between the endpoints. -/
theorem table_between {a b : Byte} {i : Code} (hi : b.toNat < a.toNat ∨ i.val ≤ 5) :
    min a.toNat b.toNat ≤ ((table a b)[i]).toNat ∧ ((table a b)[i]).toNat ≤ max a.toNat b.toNat := by
  rcases lt_or_ge b.toNat a.toNat with hlt | hle
  · rw [min_eq_right hlt.le, max_eq_left hlt.le]
    exact table_between_eight hlt i
  · rw [min_eq_left hle, max_eq_right hle]
    exact table_between_six hle (hi.resolve_left hle.not_gt)

/-- An entry between equal endpoints is their value. -/
theorem table_self_of_le (v : Byte) {i : Code} (hi : i.val ≤ 5) : (table v v)[i] = v := by
  obtain ⟨hlow, hhigh⟩ := table_between_six (le_refl v.toNat) hi
  exact BitVec.eq_of_toNat_eq (le_antisymm hhigh hlow)

theorem table_self (v : Byte) : table v v = #v[v, v, v, v, v, v, 0#8, 255#8] := by
  refine Vector.ext fun i hi => ?_
  match i with
  | 0 | 1 | 2 | 3 | 4 | 5 => exact table_self_of_le v (i := ⟨_, hi⟩) (by simp)
  | 6 => exact table_six_of_le le_rfl
  | 7 => exact table_seven_of_le le_rfl

theorem table_255_0 : table 255#8 0#8 = #v[255#8, 0#8, 219#8, 182#8, 146#8, 109#8, 73#8, 36#8] := by decide

theorem table_0_255 : table 0#8 255#8 = #v[0#8, 255#8, 51#8, 102#8, 153#8, 204#8, 0#8, 255#8] := by decide

theorem table_1_0 : table 1#8 0#8 = #v[1#8, 0#8, 1#8, 1#8, 1#8, 0#8, 0#8, 0#8] := by decide

/-- Settles O20: each entry is a level, the levels are monotone, and equal endpoints leave one value between them. -/
theorem tableFactsOfTheSpec : Obligations.TableFactsOfTheSpec := by
  unfold Obligations.TableFactsOfTheSpec
  exact ⟨fun a b j k hjk => ⟨fun hlt => level8_mono hlt hjk, fun hle => level6_mono hle hjk⟩,
    fun a b i => table_between, fun a b => ⟨table_zero a b, table_one a b⟩, table_self, table_255_0, table_0_255,
    table_1_0⟩

/-! ### The decoder's corner cases (42_decoder.md R103) -/

/-- Endpoints that differ by one have no value strictly between them. -/
theorem table_succ_self {b : Byte} (hb : b.toNat < 255) (i : Code) :
    (table (b + 1#8) b)[i] = b + 1#8 ∨ (table (b + 1#8) b)[i] = b := by
  have hsucc : (b + 1#8).toNat = b.toNat + 1 := by
    rw [BitVec.toNat_add]
    exact Nat.mod_eq_of_lt (Nat.succ_lt_succ hb)
  obtain ⟨hlow, hhigh⟩ := table_between_eight (a := b + 1#8) (b := b) (by omega) i
  rcases hlow.eq_or_lt with heq | hlt
  · exact .inr (BitVec.eq_of_toNat_eq heq.symm)
  · exact .inl (BitVec.eq_of_toNat_eq (by omega))

/-- Settles O21: with equal endpoints a code selects the value, 0 or 255; the other cases are tables or whole blocks. -/
theorem decoderCornerCases : Obligations.DecoderCornerCases := by
  unfold Obligations.DecoderCornerCases
  refine ⟨fun v idx i => ?_, table_0_255, table_255_0, fun b i hb => table_succ_self hb i, table_1_0, by decide,
    by decide⟩
  have hdec : (decodeBlock (packBlock v v idx))[i] = (table v v)[idx[i]] :=
    decodeBlock_packBlock_getElem v v idx i i.isLt
  rw [hdec]
  refine ⟨table_self_of_le v, fun hi => ?_, fun hi => ?_⟩
  · simp only [hi]
    exact table_six_of_le le_rfl
  · simp only [hi]
    exact table_seven_of_le le_rfl

/-! ### The quality scalar (30_encoding.md R67, R68) -/

open Sys2Proof.Safety

section
variable {w : Word}

theorem clampQ_of_negative (h : 2 ^ 31 ≤ w.toNat) : clampQ w = 0#32 := by rw [clampQ_eq, if_pos h]

theorem clampQ_of_above (h : w.toNat < 2 ^ 31) (hone : 0x3F800000 < w.toNat) : clampQ w = 0x3F800000#32 := by
  rw [clampQ_eq, if_neg h.not_ge, if_pos hone]

theorem clampQ_of_le (h : w.toNat ≤ 0x3F800000) : clampQ w = w := by
  rw [clampQ_eq, if_neg (by omega), if_neg h.not_gt]

theorem getLsbD_sign : w.getLsbD 31 = decide (2 ^ 31 ≤ w.toNat) := by
  have hw := w.isLt
  rw [BitVec.getLsbD, Nat.testBit_eq_decide_div_mod_eq, decide_eq_decide]
  omega

theorem binary32Scaled_of_negative (h : 2 ^ 31 ≤ w.toNat) : binary32Scaled w ≤ 0 := by
  rw [binary32Scaled, getLsbD_sign, decide_eq_true h, if_pos rfl]
  omega

theorem binary32Scaled_of_nonneg (h : w.toNat < 2 ^ 31) : binary32Scaled w = binary32Magnitude w := by
  rw [binary32Scaled, getLsbD_sign, decide_eq_false h.not_ge, if_neg Bool.false_ne_true]

/-- Below the pattern of 1.0 the magnitude is at most 1.0, which is 2^149: a smaller exponent gives less than twice its
power of two, and at the exponent of 1.0 the fraction is 0. -/
theorem binary32Magnitude_le (h : w.toNat ≤ 0x3F800000) : binary32Magnitude w ≤ 2 ^ 149 := by
  rw [binary32Magnitude]
  split
  · omega
  · rcases h.eq_or_lt with heq | hlt
    · rw [heq]
      norm_num
    · calc (2 ^ 23 + w.toNat % 2 ^ 23) * 2 ^ (w.toNat / 2 ^ 23 % 256 - 1)
          ≤ 2 ^ 24 * 2 ^ 125 := Nat.mul_le_mul (by omega) (Nat.pow_le_pow_right (by decide) (by omega))
        _ = 2 ^ 149 := by norm_num

/-- Above the pattern of 1.0 the exponent is at least that of 1.0. -/
theorem le_binary32Magnitude (h : w.toNat < 2 ^ 31) (hone : 0x3F800000 < w.toNat) : 2 ^ 149 ≤ binary32Magnitude w := by
  rw [binary32Magnitude, if_neg (by omega)]
  calc 2 ^ 149 = 2 ^ 23 * 2 ^ 126 := by norm_num
    _ ≤ (2 ^ 23 + w.toNat % 2 ^ 23) * 2 ^ (w.toNat / 2 ^ 23 % 256 - 1) :=
      Nat.mul_le_mul (by omega) (Nat.pow_le_pow_right (by decide) (by omega))

/-- The clamped pattern denotes the clamped number. -/
theorem binary32Scaled_clampQ (w : Word) : binary32Scaled (clampQ w) = max 0 (min (2 ^ 149) (binary32Scaled w)) := by
  rcases lt_or_ge w.toNat (2 ^ 31) with hpos | hneg
  · rw [binary32Scaled_of_nonneg hpos]
    rcases lt_or_ge 0x3F800000 w.toNat with hone | hle
    · have hmag : (2 : Int) ^ 149 ≤ binary32Magnitude w := by exact_mod_cast le_binary32Magnitude hpos hone
      rw [clampQ_of_above hpos hone, min_eq_left hmag]
      decide
    · have hmag : (binary32Magnitude w : Int) ≤ 2 ^ 149 := by exact_mod_cast binary32Magnitude_le hle
      rw [clampQ_of_le hle, binary32Scaled_of_nonneg hpos, min_eq_right hmag, max_eq_right (Int.natCast_nonneg _)]
  · have hle := binary32Scaled_of_negative hneg
    rw [clampQ_of_negative hneg, max_eq_left ((min_le_right _ _).trans hle)]
    decide

end

/-- Settles O10: the clamp is one of three cases, and each keeps or bounds the number that the pattern denotes. -/
theorem clampStaysInTheUnitRange : Obligations.ClampStaysInTheUnitRange := by
  unfold Obligations.ClampStaysInTheUnitRange
  exact fun w => ⟨clampQ_of_negative, clampQ_of_above, clampQ_of_le, fun _ => binary32Scaled_clampQ w, clampQ_le w,
    clampQ_of_le (clampQ_le w)⟩

end Machine
end Sys2Proof
end

section
/-! PROOFS. The properties of the encoder that 41_encoder.md R97 derives: what the emitted block is in each mode, that its
error is the least, and what it decodes to. -/

namespace Sys2Proof.Machine

open Sys2Proof.Safety

/-! ### The nearest code of a sample (41_encoder.md R93) -/

section
variable {a b x : Byte}

theorem nearest_le (t : Table) (x : Byte) (j : Code) : absDiff x (t[nearest t x]) ≤ absDiff x (t[j]) :=
  (nearest_isNearest t x).1 j

/-- No code below the nearest one is as near. -/
theorem le_of_nearest_eq {t : Table} {i j : Code} (hj : nearest t x = j) (hi : absDiff x (t[i]) ≤ absDiff x (t[j])) :
    j ≤ i := by
  subst hj
  exact (nearest_isNearest t x).2 i fun k => hi.trans (nearest_le t x k)

/-- A sample that the table holds is at no distance from its nearest entry. -/
theorem table_nearest_eq {t : Table} {i : Code} (hi : t[i] = x) : t[nearest t x] = x := by
  have hzero : absDiff x (t[nearest t x]) ≤ 0 := (nearest_le t x i).trans_eq (absDiff_eq_zero.2 hi.symm)
  exact (absDiff_eq_zero.1 (Nat.le_zero.1 hzero)).symm

theorem nearest_of_eq_zero (a b : Byte) : nearest (table a b) a = 0 := by
  have hle : absDiff a ((table a b)[(0 : Code)]) ≤ absDiff a ((table a b)[nearest (table a b) a]) :=
    (absDiff_eq_zero.2 (table_zero a b).symm).trans_le (Nat.zero_le _)
  exact Fin.le_zero_iff.1 (le_of_nearest_eq rfl hle)

theorem nearest_of_eq_one (hne : a ≠ b) : nearest (table a b) b = 1 := by
  have hentry : (table a b)[nearest (table a b) b] = b := table_nearest_eq (i := 1) (table_one a b)
  have hle : absDiff b ((table a b)[(1 : Code)]) ≤ absDiff b ((table a b)[nearest (table a b) b]) :=
    (absDiff_eq_zero.2 (table_one a b).symm).trans_le (Nat.zero_le _)
  have hone : (nearest (table a b) b).val ≤ 1 := le_of_nearest_eq rfl hle
  have hzero : (nearest (table a b) b).val ≠ 0 := by
    intro h
    have hcode : nearest (table a b) b = 0 := Fin.ext h
    simp only [hcode] at hentry
    exact hne ((table_zero a b).symm.trans hentry)
  exact Fin.ext (show (nearest (table a b) b).val = 1 by omega)

/-- In a 6-level table no sample between the endpoints has a constant as its nearest entry: 0 is no nearer than the smaller
endpoint, 255 no nearer than the larger, and a tie goes to the endpoint's lower code. -/
theorem nearest_six_le_five (hax : a.toNat ≤ x.toNat) (hxb : x.toNat ≤ b.toNat) :
    (nearest (table a b) x).val ≤ 5 := by
  have hab := hax.trans hxb
  by_contra hgt
  have hb := b.isLt
  rcases (show (nearest (table a b) x).val = 6 ∨ (nearest (table a b) x).val = 7 by omega) with h6 | h7
  · have hcode : nearest (table a b) x = 6 := Fin.ext h6
    have hentry : absDiff x ((table a b)[(0 : Code)]) ≤ absDiff x ((table a b)[(6 : Code)]) := by
      rw [show (table a b)[(0 : Code)] = a from table_zero a b,
        show (table a b)[(6 : Code)] = 0#8 from table_six_of_le hab]
      simp only [absDiff, BitVec.toNat_ofNat]
      omega
    exact absurd (le_of_nearest_eq hcode hentry) (by decide)
  · have hcode : nearest (table a b) x = 7 := Fin.ext h7
    have hentry : absDiff x ((table a b)[(1 : Code)]) ≤ absDiff x ((table a b)[(7 : Code)]) := by
      rw [show (table a b)[(1 : Code)] = b from table_one a b,
        show (table a b)[(7 : Code)] = 255#8 from table_seven_of_le hab]
      simp only [absDiff, BitVec.toNat_ofNat]
      omega
    exact absurd (le_of_nearest_eq hcode hentry) (by decide)

/-- The nearest entry to a sample between the endpoints lies between them. -/
theorem table_nearest_between (hlow : min a.toNat b.toNat ≤ x.toNat) (hhigh : x.toNat ≤ max a.toNat b.toNat) :
    min a.toNat b.toNat ≤ ((table a b)[nearest (table a b) x]).toNat ∧
      ((table a b)[nearest (table a b) x]).toNat ≤ max a.toNat b.toNat := by
  refine table_between ((lt_or_ge b.toNat a.toNat).imp_right fun hle => ?_)
  rw [min_eq_left hle] at hlow
  rw [max_eq_right hle] at hhigh
  exact nearest_six_le_five hlow hhigh

end

/-! ### The emitted block (41_encoder.md R91, R94, R95) -/

/-- The quantizer's codes have the least sum of squared errors that the table allows. -/
theorem squaredError_quantize_le (t : Table) (s : Block) (idx : Codes) :
    squaredError t s (quantize t s) ≤ squaredError t s idx := by
  refine List.sum_le_sum fun i _ => Nat.pow_le_pow_left ?_ 2
  have hcode : (quantize t s)[i] = nearest t (s[i]) := quantize_getElem t s i i.isLt
  simp only [hcode]
  exact nearest_le t _ _

/-- A flat block's codes are the quantizer's. -/
theorem quantize_flat {s : Block} {v : Byte} (hs : ∀ i : Fin 16, s[i] = v) :
    quantize (table v v) s = Vector.replicate 16 0 := by
  refine Vector.ext fun i hi => ?_
  rw [quantize_getElem _ _ i hi, Vector.getElem_replicate, show s[i] = v from hs ⟨i, hi⟩]
  exact nearest_of_eq_zero v v

/-- A block whose extremes are equal is flat. -/
theorem eq_of_extremes_eq {s : Block} {lo hi : Byte} (hlo : IsLeastSample s lo) (hhi : IsGreatestSample s hi)
    (heq : lo = hi) (i : Fin 16) : s[i] = lo :=
  BitVec.eq_of_toNat_eq (le_antisymm (heq ▸ hhi.2 i) (hlo.2 i))

/-- What the encoder emits: one of the two orders of the extremes, with the quantizer's codes under the table of that
order, whose error is at most that of the other order. -/
structure EmitsBest (s : Block) (a b : Byte) : Prop where
  packs : encodeBlock s = packBlock a b (quantize (table a b) s)
  least : squaredError (table a b) s (quantize (table a b) s) ≤ squaredError (table b a) s (quantize (table b a) s)

theorem encodeBlock_emitsBest {s : Block} {lo hi : Byte} (hlo : IsLeastSample s lo) (hhi : IsGreatestSample s hi) :
    EmitsBest s lo hi ∨ EmitsBest s hi lo := by
  obtain rfl := minSample_eq hlo
  obtain rfl := maxSample_eq hhi
  by_cases hflat : minSample s = maxSample s
  · refine .inl ⟨?_, by rw [hflat]⟩
    rw [encodeBlock_flat hflat, ← hflat, quantize_flat (eq_of_extremes_eq hlo hhi hflat)]
  · have hbranch := encodeBlock_of_ne hflat
    split at hbranch
    · next hsix => exact .inl ⟨hbranch, hsix.le⟩
    · next hnot => exact .inr ⟨hbranch, not_lt.1 hnot⟩

/-- In either order of the extremes every sample lies between the endpoints. -/
theorem exists_emitsBest (s : Block) :
    ∃ a b, EmitsBest s a b ∧ ∀ i : Fin 16, min a.toNat b.toNat ≤ (s[i]).toNat ∧ (s[i]).toNat ≤ max a.toNat b.toNat := by
  have hlo := minSample_isLeast s
  have hhi := maxSample_isGreatest s
  rcases encodeBlock_emitsBest hlo hhi with hbest | hbest
  · exact ⟨_, _, hbest, fun i => ⟨(min_le_left _ _).trans (hlo.2 i), (hhi.2 i).trans (le_max_right _ _)⟩⟩
  · exact ⟨_, _, hbest, fun i => ⟨(min_le_right _ _).trans (hlo.2 i), (hhi.2 i).trans (le_max_left _ _)⟩⟩

section
variable {s : Block} {a b : Byte}

theorem EmitsBest.zero (h : EmitsBest s a b) : (encodeBlock s)[0] = a := by rw [h.packs, packBlock_zero]

theorem EmitsBest.one (h : EmitsBest s a b) : (encodeBlock s)[1] = b := by rw [h.packs, packBlock_one]

theorem EmitsBest.code (h : EmitsBest s a b) (i : Fin 16) :
    (unpackIdx (encodeBlock s))[i] = nearest (table a b) (s[i]) := by
  rw [h.packs, unpackIdx_packBlock]
  exact quantize_getElem _ s i i.isLt

theorem EmitsBest.sample (h : EmitsBest s a b) (i : Fin 16) :
    (decodeBlock (encodeBlock s))[i] = (table a b)[nearest (table a b) (s[i])] := by
  have hdec : (decodeBlock (encodeBlock s))[i] = (table a b)[(quantize (table a b) s)[i]] := by
    rw [h.packs]
    exact decodeBlock_packBlock_getElem a b _ i i.isLt
  have hcode : (quantize (table a b) s)[i] = nearest (table a b) (s[i]) := quantize_getElem _ s i i.isLt
  simp only [hdec, hcode]

/-- The emitted block's error under its own table is at most that of any codes in either order. -/
theorem EmitsBest.error_le (h : EmitsBest s a b) (idx : Codes) :
    squaredError (table a b) s (unpackIdx (encodeBlock s)) ≤ squaredError (table a b) s idx ∧
      squaredError (table a b) s (unpackIdx (encodeBlock s)) ≤ squaredError (table b a) s idx := by
  rw [h.packs, unpackIdx_packBlock]
  exact ⟨squaredError_quantize_le _ s idx, h.least.trans (squaredError_quantize_le _ s idx)⟩

end

/-! ### The statements -/

/-- Settles O26: within a table the quantizer's codes are the best, and the encoder takes the better of the two tables. -/
theorem encoderMinimisesTheSquaredError : Obligations.EncoderMinimisesTheSquaredError := by
  unfold Obligations.EncoderMinimisesTheSquaredError
  intro s lo hi idx hlo hhi
  have horder {a b : Byte} (hbest : EmitsBest s a b) :
      sumOfSquares (table ((encodeBlock s)[0]) ((encodeBlock s)[1])) s (fun i => (unpackIdx (encodeBlock s))[i]) ≤
          sumOfSquares (table a b) s idx ∧
        sumOfSquares (table ((encodeBlock s)[0]) ((encodeBlock s)[1])) s (fun i => (unpackIdx (encodeBlock s))[i]) ≤
          sumOfSquares (table b a) s idx := by
    obtain ⟨hown, hother⟩ := hbest.error_le (Vector.ofFn idx)
    rw [hbest.zero, hbest.one, ← squaredError_eq, ← squaredError_ofFn, ← squaredError_ofFn]
    exact ⟨Int.ofNat_le.2 hown, Int.ofNat_le.2 hother⟩
  rcases encodeBlock_emitsBest hlo hhi with hbest | hbest
  · exact horder hbest
  · exact (horder hbest).symm

/-- Settles O27: the nearest entry to a sample lies between the endpoints, which are the extremes. -/
theorem roundTripStaysBetweenTheExtremes : Obligations.RoundTripStaysBetweenTheExtremes := by
  unfold Obligations.RoundTripStaysBetweenTheExtremes
  intro s lo hi i hlo hhi
  have hle : lo.toNat ≤ hi.toNat := (hlo.2 i).trans (hhi.2 i)
  rcases encodeBlock_emitsBest hlo hhi with hbest | hbest
  · have hbetween := table_nearest_between ((min_le_left lo.toNat hi.toNat).trans (hlo.2 i))
      ((hhi.2 i).trans (le_max_right _ _))
    rwa [← hbest.sample, min_eq_left hle, max_eq_right hle] at hbetween
  · have hbetween := table_nearest_between ((min_le_right hi.toNat lo.toNat).trans (hlo.2 i))
      ((hhi.2 i).trans (le_max_left _ _))
    rwa [← hbest.sample, min_eq_right hle, max_eq_left hle] at hbetween

/-- Settles O28: the endpoints are entries 0 and 1 of the table, so a sample equal to one is at no distance from it, and
the scan finds code 0 for the first endpoint and code 1 for the second when they differ. -/
theorem extremesAreReproducedExactly : Obligations.ExtremesAreReproducedExactly := by
  unfold Obligations.ExtremesAreReproducedExactly
  intro s lo hi i hlo hhi out
  have hle : lo.toNat ≤ hi.toNat := (hlo.2 i).trans (hhi.2 i)
  have hexact {a b : Byte} (hbest : EmitsBest s a b) (hend : s[i] = a ∨ s[i] = b) : (decodeBlock out)[i] = s[i] := by
    rw [hbest.sample i]
    rcases hend with ha | hb
    · exact table_nearest_eq (i := 0) ((table_zero a b).trans ha.symm)
    · exact table_nearest_eq (i := 1) ((table_one a b).trans hb.symm)
  have hcodes {a b : Byte} (hbest : EmitsBest s a b) (hne : a.toNat ≠ b.toNat) :
      (s[i] = a → (unpackIdx out)[i] = 0) ∧ (s[i] = b → (unpackIdx out)[i] = 1) := by
    rw [hbest.code i]
    refine ⟨fun ha => ?_, fun hb => ?_⟩
    · rw [ha]
      exact nearest_of_eq_zero a b
    · rw [hb]
      exact nearest_of_eq_one (ne_of_apply_ne _ hne)
  rcases encodeBlock_emitsBest hlo hhi with hbest | hbest
  · rw [show out[0] = lo from hbest.zero, show out[1] = hi from hbest.one]
    exact ⟨hexact hbest, fun hlt => absurd hle hlt.not_ge, fun hlt => hcodes hbest hlt.ne⟩
  · rw [show out[0] = hi from hbest.zero, show out[1] = lo from hbest.one]
    exact ⟨fun hend => hexact hbest hend.symm, fun hlt => hcodes hbest hlt.ne', fun hlt => absurd hle hlt.not_ge⟩

/-- Settles O29: the codes are the nearest ones, which in a 6-level table are never the two constants. -/
theorem encoderEmitsNoReservedCode : Obligations.EncoderEmitsNoReservedCode := by
  unfold Obligations.EncoderEmitsNoReservedCode
  intro s i hsix
  obtain ⟨a, b, hbest, hsamples⟩ := exists_emitsBest s
  obtain ⟨hlow, hhigh⟩ := hsamples i
  rw [hbest.zero, hbest.one] at hsix
  rw [min_eq_left hsix] at hlow
  rw [max_eq_right hsix] at hhigh
  rw [hbest.code i]
  exact nearest_six_le_five hlow hhigh

/-- Settles O30: the endpoints are the extremes, and equal extremes leave one value for the samples. -/
theorem equalEndpointsMeanAFlatBlock : Obligations.EqualEndpointsMeanAFlatBlock := by
  unfold Obligations.EqualEndpointsMeanAFlatBlock
  intro s
  constructor
  · intro heq
    have hlo := minSample_isLeast s
    have hhi := maxSample_isGreatest s
    have hext : minSample s = maxSample s := by
      rcases encodeBlock_emitsBest hlo hhi with hbest | hbest
      · rwa [hbest.zero, hbest.one] at heq
      · rw [hbest.zero, hbest.one] at heq
        exact heq.symm
    refine ⟨minSample s, Vector.ext fun i hi => ?_⟩
    rw [Vector.getElem_replicate]
    exact eq_of_extremes_eq hlo hhi hext ⟨i, hi⟩
  · rintro ⟨v, rfl⟩
    rw [encodeBlock_replicate, packBlock_zero, packBlock_one]

/-! ### The error of an 8-level block (41_encoder.md R97(g)) -/

/-- Every level of the 8-level mode has a code: the last is code 0, the first code 1, each other level `k` code `8 - k`. -/
theorem exists_code_of_level8 {a b : Byte} (hlt : b.toNat < a.toNat) {k : Nat} (hk : k ≤ 7) :
    ∃ i : Code, ((table a b)[i]).toNat = level8 3 a.toNat b.toNat k := by
  rcases (show k = 0 ∨ k = 7 ∨ 1 ≤ k ∧ k ≤ 6 by omega) with rfl | rfl | ⟨h1, h6⟩
  · exact ⟨1, by rw [level8_zero]; exact congrArg _ (table_one a b)⟩
  · exact ⟨0, by rw [level8_seven]; exact congrArg _ (table_zero a b)⟩
  · refine ⟨⟨8 - k, by omega⟩, ?_⟩
    rw [table_toNat_eight hlt, entry8_eq_level8 (show 2 ≤ 8 - k by omega) (Nat.sub_le_of_le_add (by omega)),
      Nat.sub_sub_self (by omega)]

/-- Every number between the endpoints is near some level. With `d` the distance of the endpoints, take the multiple of
`d / 7` nearest to it, at most `d / 14` away; rounding that multiple to an integer adds at most `3 / 7`. -/
theorem exists_near_level8 {a b x : Nat} (hlt : b < a) (hbx : b ≤ x) (hxa : x ≤ a) :
    ∃ k ≤ 7, (x - level8 3 a b k) + (level8 3 a b k - x) ≤ (a - b + 13) / 14 := by
  obtain ⟨d, rfl⟩ := Nat.exists_eq_add_of_le hlt.le
  obtain ⟨y, rfl⟩ := Nat.exists_eq_add_of_le hbx
  have hk : (14 * y + d) / (2 * d) ≤ 7 := Nat.le_of_lt_succ (Nat.div_lt_of_lt_mul (by omega))
  refine ⟨(14 * y + d) / (2 * d), hk, ?_⟩
  rw [level8_eq hlt.le hk, Nat.add_sub_cancel_left]
  have hdiv := Nat.div_add_mod (14 * y + d) (2 * d)
  have hmod := Nat.mod_lt (14 * y + d) (show 0 < 2 * d by omega)
  rw [Nat.mul_assoc, Nat.mul_comm d] at hdiv
  omega

/-- Settles O31: the nearest entry is at least as near as the level nearest to the sample. -/
theorem eightLevelErrorBound : Obligations.EightLevelErrorBound := by
  unfold Obligations.EightLevelErrorBound
  intro s i out hlt
  obtain ⟨a, b, hbest, hsamples⟩ := exists_emitsBest s
  obtain ⟨hlow, hhigh⟩ := hsamples i
  rw [show out[0] = a from hbest.zero, show out[1] = b from hbest.one] at hlt ⊢
  rw [min_eq_right hlt.le] at hlow
  rw [max_eq_left hlt.le] at hhigh
  obtain ⟨k, hk, hnear⟩ := exists_near_level8 hlt hlow hhigh
  obtain ⟨j, hj⟩ := exists_code_of_level8 hlt hk
  calc absDiff (s[i]) ((decodeBlock out)[i])
      = absDiff (s[i]) ((table a b)[nearest (table a b) (s[i])]) := by rw [hbest.sample i]
    _ ≤ absDiff (s[i]) ((table a b)[j]) := nearest_le _ _ j
    _ ≤ (a.toNat - b.toNat + 13) / 14 := by rwa [absDiff, hj]

end Sys2Proof.Machine
end

section
/-! PROOFS. The statements about every command: on which addresses it completes (20_memory.md R36), what it leaves
unchanged (10_state.md R26), which bytes it stores, which marks it sets (60_exceptions.md R126), and that the qualities
reach nothing (40_options.md R84). -/

namespace Sys2Proof.Machine

open Sys2Proof.Safety

/-! ### Completion (20_memory.md R36) -/

section
variable {i : Instr} {s : State}

/-- A command that stores nothing accesses what it loads. -/
theorem onBacked_loadAddrs (hs : storeCells i s = []) (r : Result) :
    onBacked (loadAddrs i s) s r = onBacked (accessed i s) s r := by
  rw [accessed, hs, List.map_nil, List.append_nil]

/-- A command that loads nothing accesses what it stores. -/
theorem onBacked_storeCells (hl : loadAddrs i s = []) (r : Result) :
    onBacked ((storeCells i s).map Prod.fst) s r = onBacked (accessed i s) s r := by
  rw [accessed, hl, List.nil_append]

theorem storeAll_of_backed {cells : List StoreCell} (hb : ∀ a ∈ cells.map Prod.fst, s.isBacked a = true) :
    storeAll cells s = .next { s with mem := s.mem.writeCells cells, status := 0#32 } :=
  onBacked_of_backed hb _

end

/-- Every command is one effect behind the backing check of the addresses it accesses. -/
theorem exec_onBacked (i : Instr) (s : State) : ∃ t, exec i s = onBacked (accessed i s) s (.next t) := by
  cases i with
  | optCreate =>
    rcases hk : leastFree s.opts with _ | k
    · exact ⟨_, execOptCreate_of_full (leastFree_none_iff.1 hk)⟩
    · exact ⟨_, execOptCreate_of_leastFree hk⟩
  | optDestroy h =>
    cases hl : isLive h s
    · exact ⟨_, execOptDestroy_of_not_live hl⟩
    · exact ⟨_, execOptDestroy_of_live hl⟩
  | optSetq h =>
    cases hl : isLive h s
    · exact ⟨_, execOptSetq_of_not_live hl⟩
    · exact ⟨_, execOptSetq_of_live hl⟩
  | enc h =>
    by_cases hr : h = 0 ∨ isLive h s = true
    · exact ⟨_, execEnc_of_resolves hr⟩
    · obtain ⟨h0, hl⟩ := not_or.1 hr
      exact ⟨_, execEnc_of_stale h0 (Bool.eq_false_iff.2 hl)⟩
  | dec h =>
    by_cases hr : h = 0 ∨ isLive h s = true
    · exact ⟨_, execDec_of_resolves hr⟩
    · obtain ⟨h0, hl⟩ := not_or.1 hr
      exact ⟨_, execDec_of_stale h0 (Bool.eq_false_iff.2 hl)⟩
  | ext1 | ext4 | ldcb => exact ⟨_, onBacked_loadAddrs rfl (.next _)⟩
  | stcb => exact ⟨_, onBacked_storeCells (i := .stcb) rfl (.next _)⟩
  | stb1 => exact ⟨_, onBacked_storeCells (i := .stb1) rfl (.next _)⟩
  | stb4 => exact ⟨_, onBacked_storeCells (i := .stb4) rfl (.next _)⟩

/-- Settles O39, from the two ways the backing check can end. -/
theorem commandsCompleteExactlyOnBackedAddresses : Obligations.CommandsCompleteExactlyOnBackedAddresses := by
  unfold Obligations.CommandsCompleteExactlyOnBackedAddresses
  intro i s
  obtain ⟨t, ht⟩ := exec_onBacked i s
  rcases onBacked_cases (accessed i s) s (.next t) with ⟨hb, hnext⟩ | ⟨a, ha, hab, hfault⟩
  · refine ⟨fun _ => ⟨t, ht.trans hnext⟩, fun ⟨a, ha, hab⟩ => ?_⟩
    rw [hb a ha] at hab
    cases hab
  · refine ⟨fun hb => ?_, fun _ => ⟨a, ha, hab, ht.trans hfault⟩⟩
    rw [hb a ha] at hab
    cases hab

/-! ### Frames (10_state.md R26) -/

/-- Settles O40, from what each command can do. -/
theorem commandsLeaveTheOtherRegisters : Obligations.CommandsLeaveTheOtherRegisters := by
  unfold Obligations.CommandsLeaveTheOtherRegisters
  intro i s t h
  cases i with
  | optCreate => rcases execOptCreate_next h with ⟨-, rfl⟩ | ⟨k, -, rfl⟩ <;> simp [readByte_eq]
  | optDestroy _ => rcases execOptDestroy_next h with ⟨-, rfl⟩ | ⟨-, rfl⟩ <;> simp [readByte_eq]
  | optSetq _ => rcases execOptSetq_next h with ⟨-, rfl⟩ | ⟨-, rfl⟩ <;> simp [readByte_eq]
  | enc _ => rcases execEnc_next h with ⟨-, rfl⟩ | ⟨-, rfl⟩ <;> simp [readByte_eq]
  | dec _ => rcases execDec_next h with ⟨-, rfl⟩ | ⟨-, rfl⟩ <;> simp [readByte_eq]
  | ext1 => obtain ⟨-, rfl⟩ := execExt1_next h; simp [readByte_eq]
  | ext4 => obtain ⟨-, rfl⟩ := execExt4_next h; simp [readByte_eq]
  | ldcb => obtain ⟨-, rfl⟩ := execLdcb_next h; simp [readByte_eq]
  | stcb => obtain ⟨-, rfl⟩ := execStcb_next h; simp
  | stb1 => obtain ⟨-, rfl⟩ := execStb1_next h; simp
  | stb4 => obtain ⟨-, rfl⟩ := execStb4_next h; simp

/-- The platform, the host's side and the illegal mark are beyond every command. -/
theorem exec_keeps_outside {i : Instr} {s t : State} (h : exec i s = .next t) :
    t.backed = s.backed ∧ t.host = s.host ∧ t.reads = s.reads ∧ t.draws = s.draws ∧ t.illegalUsed = s.illegalUsed := by
  obtain ⟨-, -, -, -, -, -, -, -, -, houtside⟩ := commandsLeaveTheOtherRegisters i s t h
  exact houtside

theorem isBacked_congr {s t : State} (h : t.backed = s.backed) (a : Word) : t.isBacked a = s.isBacked a := by
  rw [State.isBacked, State.isBacked, h]

/-- Settles O41: memory after a command is memory before it with the command's cells stored, no address twice. -/
theorem storesChangeOnlyTheirOwnBytes : Obligations.StoresChangeOnlyTheirOwnBytes := by
  unfold Obligations.StoresChangeOnlyTheirOwnBytes
  intro i s t hw h
  simp only [readByte_eq, exec_mem h]
  exact ⟨fun a => Memory.read_writeCells_other hw, fun c => Memory.read_writeCells_mem hw (storeCells_nodup i s)⟩

/-! ### Marks (93_implementation_defined.md U2, U10) -/

/-- The command is one that a stale handle breaks the contract of, given the handle `h`. -/
def UsesHandle (i : Instr) (h : Nat) : Prop := i = .optDestroy h ∨ i = .optSetq h ∨ i = .enc h ∨ i = .dec h

section
variable {i : Instr} {s t : State}

theorem UsesHandle.unique {h h' : Nat} (hu : UsesHandle i h) (hu' : UsesHandle i h') : h = h' := by
  rcases hu with rfl | rfl | rfl | rfl <;> simpa [UsesHandle] using hu'

/-- A command sets the stale mark exactly when it is given a stale handle. -/
theorem exec_staleUsed (h : exec i s = .next t) :
    t.staleUsed = true ↔ s.staleUsed = true ∨ ∃ k, isStale k s = true ∧ UsesHandle i k := by
  rcases exec_status h with ⟨-, hmark, -, hslot, hcodec⟩ | ⟨rfl, -, rfl⟩ | ⟨k, -, hik, rfl⟩
  · rw [hmark]
    refine (or_iff_left ?_).symm
    rintro ⟨k, hstale, hu⟩
    obtain ⟨h0, hl⟩ := (isStale_iff k s).1 hstale
    have hlive := isLive_of_handle hslot hcodec (hu.imp_right (Or.imp_right (⟨h0, ·⟩)))
    rw [hl] at hlive
    cases hlive
  · simp [UsesHandle]
  · have hu : UsesHandle i k := hik.imp_right (Or.imp_right And.right)
    rw [Bool.or_eq_true]
    refine or_congr_right ⟨fun hstale => ⟨k, hstale, hu⟩, fun ⟨k', hstale, hu'⟩ => ?_⟩
    rwa [hu.unique hu']

end

/-- Settles O44: a legal word marks as its command does, an illegal one sets the illegal mark alone. -/
theorem marksRecordContractBreaches : Obligations.MarksRecordContractBreaches := by
  unfold Obligations.MarksRecordContractBreaches
  intro w s t h
  rcases issue_next h with ⟨i, hd, hi⟩ | ⟨e, hd, rfl⟩
  · simp only [hd, Except.ok.injEq, reduceCtorEq, exists_false, or_false]
    obtain ⟨-, -, -, -, hill⟩ := exec_keeps_outside hi
    exact ⟨exec_staleUsed hi, by rw [hill]⟩
  · simp [hd]

/-! ### Option commands (40_options.md R80, R81; 70_reset_and_hazards.md R148) -/

/-- A slot freed below which every slot is live is the least free one. -/
theorem leastFree_set_free {opts : List OptSlot} {k : Nat} (hk : k < opts.length)
    (hbelow : ∀ j (hj : j < k), (opts[j]).valid = true) : leastFree (opts.set k OptSlot.free) = some k := by
  refine leastFree_some_iff.2 ⟨by rwa [List.length_set], by rw [List.getElem_set_self]; rfl, fun j hj => ?_⟩
  rw [List.getElem_set_ne hj.ne']
  exact hbelow j hj

theorem valid_of_isLive {s : State} {k : Nat} (hl : isLive (k + 1) s = true) (hk : k < s.opts.length) :
    (s.opts[k]).valid = true := by
  obtain ⟨o, ho, hvalid⟩ := (isLive_succ k s).1 hl
  rw [List.getElem?_eq_getElem hk] at ho
  rwa [Option.some.inj ho]

/-- Settles O12: with every lower slot live, the slot that OPT_DESTROY frees is the least free one. -/
theorem destroyedHandleIsIssuedAgain : Obligations.DestroyedHandleIsIssuedAgain := by
  unfold Obligations.DestroyedHandleIsIssuedAgain
  intro h s hl hfits hbelow
  cases h with
  | zero => cases hl
  | succ k =>
    obtain ⟨_, hslot, -⟩ := (isLive_succ k s).1 hl
    obtain ⟨hk, -⟩ := List.getElem?_eq_some_iff.1 hslot
    have hfree : leastFree (s.opts.set k OptSlot.free) = some k :=
      leastFree_set_free hk fun j hj => valid_of_isLive (hbelow (j + 1) (by omega) (by omega)) (by omega)
    refine ⟨_, _, execOptDestroy_of_live hl, execOptCreate_of_leastFree hfree, ?_, ?_⟩
    · rw [BitVec.toNat_ofNat]
      omega
    · exact (isLive_succ k _).2 ⟨_, List.getElem?_set_self (by rwa [List.length_set]), rfl⟩

/-! ### Qualities (40_options.md R84) -/

theorem execEnc_cb {h : Nat} {s t : State} (hr : h = 0 ∨ isLive h s = true) (ht : exec (.enc h) s = .next t) :
    t.cb = encodeBlock s.blk :=
  congrArg State.cb (Host.Outcome.next.inj (ht.symm.trans (execEnc_of_resolves hr)))

theorem execDec_blk {h : Nat} {s t : State} (hr : h = 0 ∨ isLive h s = true) (ht : exec (.dec h) s = .next t) :
    t.blk = decodeBlock s.cb :=
  congrArg State.blk (Host.Outcome.next.inj (ht.symm.trans (execDec_of_resolves hr)))

/-- Settles O15: with a handle that resolves, ENC and DEC write what the codec gives for BLK and CB alone. -/
theorem codecOutputIgnoresTheOptions : Obligations.CodecOutputIgnoresTheOptions := by
  unfold Obligations.CodecOutputIgnoresTheOptions
  intro h h' s s' t t' hr hr'
  refine ⟨fun hblk ht ht' => ?_, fun hcb ht ht' => ?_⟩
  · rw [execEnc_cb hr ht, execEnc_cb hr' ht', hblk]
  · rw [execDec_blk hr ht, execDec_blk hr' ht', hcb]

section
variable {s t : State} {opts : List OptSlot}

theorem isLive_succ_eq (k : Nat) (s : State) : isLive (k + 1) s = ((s.opts.map OptSlot.valid)[k]?).getD false := by
  rw [isLive, List.getElem?_map]
  cases s.opts[k]? <;> rfl

/-- Which handles are live depends on the valid bits alone. -/
theorem isLive_withOpts (hv : s.opts.map OptSlot.valid = opts.map OptSlot.valid) (h : Nat) :
    isLive h { s with opts := opts } = isLive h s := by
  cases h with
  | zero => rfl
  | succ k => rw [isLive_succ_eq, isLive_succ_eq, hv]

theorem isStale_withOpts (hv : s.opts.map OptSlot.valid = opts.map OptSlot.valid) (h : Nat) :
    isStale h { s with opts := opts } = isStale h s := by
  rw [isStale, isStale, isLive_withOpts hv]

/-- The least free slot depends on the valid bits alone. -/
theorem leastFree_congr (hv : s.opts.map OptSlot.valid = opts.map OptSlot.valid) : leastFree opts = leastFree s.opts := by
  have hfind (l : List OptSlot) : leastFree l = (l.map OptSlot.valid).findIdx? (!·) := by
    rw [List.findIdx?_map]
    rfl
  rw [hfind, hfind, hv]

theorem valid_set_congr (hv : s.opts.map OptSlot.valid = opts.map OptSlot.valid) (k : Nat) (o : OptSlot) :
    (s.opts.set k o).map OptSlot.valid = (opts.set k o).map OptSlot.valid := by
  rw [List.map_set, List.map_set, hv]

theorem raiseInvalidPtr_withOpts (hv : s.opts.map OptSlot.valid = opts.map OptSlot.valid) (h : Nat) :
    raiseInvalidPtr h { s with opts := opts } = .next { s with
      opts := opts, status := Config.stErrInvalidPtr, staleUsed := s.staleUsed || isStale h s } := by
  rw [raiseInvalidPtr_eq, isStale_withOpts hv]

theorem storeAll_withOpts {cells : List StoreCell} (h : storeAll cells s = .next t) :
    storeAll cells { s with opts := opts } = .next { t with opts := opts } ∧ t.opts = s.opts := by
  obtain ⟨hb, rfl⟩ := storeAll_next h
  exact ⟨storeAll_of_backed hb, rfl⟩

/-- A command run with other qualities does the same, up to the qualities. -/
theorem exec_withOpts {i : Instr} (hv : s.opts.map OptSlot.valid = opts.map OptSlot.valid) (h : exec i s = .next t) :
    ∃ opts', exec i { s with opts := opts } = .next { t with opts := opts' } ∧
      t.opts.map OptSlot.valid = opts'.map OptSlot.valid := by
  have hlive (h : Nat) := isLive_withOpts hv h
  cases i with
  | optCreate =>
    rcases execOptCreate_next h with ⟨hfull, rfl⟩ | ⟨k, hk, rfl⟩
    · exact ⟨opts, execOptCreate_of_full (leastFree_none_iff.1 ((leastFree_congr hv).trans hfull)), hv⟩
    · exact ⟨_, execOptCreate_of_leastFree ((leastFree_congr hv).trans hk), valid_set_congr hv k _⟩
  | optDestroy h' =>
    rcases execOptDestroy_next h with ⟨hl, rfl⟩ | ⟨hl, rfl⟩
    · exact ⟨_, execOptDestroy_of_live ((hlive h').trans hl), valid_set_congr hv _ _⟩
    · exact ⟨opts, (execOptDestroy_of_not_live ((hlive h').trans hl)).trans (raiseInvalidPtr_withOpts hv h'), hv⟩
  | optSetq h' =>
    rcases execOptSetq_next h with ⟨hl, rfl⟩ | ⟨hl, rfl⟩
    · exact ⟨_, execOptSetq_of_live ((hlive h').trans hl), valid_set_congr hv _ _⟩
    · exact ⟨opts, (execOptSetq_of_not_live ((hlive h').trans hl)).trans (raiseInvalidPtr_withOpts hv h'), hv⟩
  | enc h' =>
    rcases execEnc_next h with ⟨hr, rfl⟩ | ⟨hs, rfl⟩
    · exact ⟨opts, execEnc_of_resolves (hr.imp_right (hlive h').trans), hv⟩
    · obtain ⟨h0, hl⟩ := (isStale_iff h' s).1 hs
      refine ⟨opts, (execEnc_of_stale h0 ((hlive h').trans hl)).trans ?_, hv⟩
      rw [raiseInvalidPtr_withOpts hv, hs, Bool.or_true]
  | dec h' =>
    rcases execDec_next h with ⟨hr, rfl⟩ | ⟨hs, rfl⟩
    · exact ⟨opts, execDec_of_resolves (hr.imp_right (hlive h').trans), hv⟩
    · obtain ⟨h0, hl⟩ := (isStale_iff h' s).1 hs
      refine ⟨opts, (execDec_of_stale h0 ((hlive h').trans hl)).trans ?_, hv⟩
      rw [raiseInvalidPtr_withOpts hv, hs, Bool.or_true]
  | ext1 =>
    obtain ⟨hb, rfl⟩ := execExt1_next h
    exact ⟨opts, onBacked_of_backed hb _, hv⟩
  | ext4 =>
    obtain ⟨hb, rfl⟩ := execExt4_next h
    exact ⟨opts, onBacked_of_backed hb _, hv⟩
  | ldcb =>
    obtain ⟨hb, rfl⟩ := execLdcb_next h
    exact ⟨opts, onBacked_of_backed hb _, hv⟩
  | stcb =>
    obtain ⟨ht, hopts⟩ := storeAll_withOpts h
    exact ⟨opts, ht, hopts ▸ hv⟩
  | stb1 =>
    obtain ⟨ht, hopts⟩ := storeAll_withOpts h
    exact ⟨opts, ht, hopts ▸ hv⟩
  | stb4 =>
    obtain ⟨ht, hopts⟩ := storeAll_withOpts h
    exact ⟨opts, ht, hopts ▸ hv⟩

end

/-- Settles O16: handles and free slots depend on the valid bits alone, and nothing else of a command reads the slots. -/
theorem qualitiesReachNothingElse : Obligations.QualitiesReachNothingElse := by
  unfold Obligations.QualitiesReachNothingElse
  rintro i s s' t ⟨hs', hv⟩ h
  rw [hs']
  obtain ⟨opts', ht', hv'⟩ := exec_withOpts hv h
  exact ⟨_, ht', rfl, hv'⟩

/-! ### STB4 and then EXT4 (43_block_io.md R111, corner case) -/

/-- The R byte of texel `i` of a tile with stride 16 is byte `4 * i`. -/
theorem addrAt_dense (base : Word) (i : Nat) :
    addrAt base 16#32 (i / 4) (4 * (i % 4)) = base + BitVec.ofNat 32 (4 * i) := by
  have hoffset : base.toNat + i / 4 * (16#32).toNat + 4 * (i % 4) = base.toNat + 4 * i := by
    rw [show (16#32).toNat = 16 from rfl]
    omega
  rw [addrAt_eq, add_ofNat, hoffset]

/-- Byte `4 * i` of what STB4 stores is sample `i`. -/
theorem mem_stb4Cells (s : State) (i : Fin 16) : (s.dstAddr + BitVec.ofNat 32 (4 * i.val), s.blk[i]) ∈ stb4Cells s := by
  refine List.mem_map.2 ⟨⟨4 * i.val, by omega⟩, List.mem_finRange _, ?_⟩
  simp

/-- Settles O38: EXT4 reads the bytes `4 * i` of the destination, which STB4 wrote with sample `i`. -/
theorem extractUndoesTheReplicatedStore : Obligations.ExtractUndoesTheReplicatedStore := by
  unfold Obligations.ExtractUndoesTheReplicatedStore
  intro s t hw h
  obtain ⟨hb, -⟩ := execStb4_next h
  obtain ⟨hbacked, -⟩ := exec_keeps_outside h
  obtain ⟨-, hstored⟩ := storesChangeOnlyTheirOwnBytes .stb4 s t hw h
  have hback (i : Fin 16) : t.isBacked (s.dstAddr + BitVec.ofNat 32 (4 * i.val)) = true := by
    rw [isBacked_congr hbacked]
    exact hb _ (List.mem_map.2 ⟨_, mem_stb4Cells s i, rfl⟩)
  have hread (i : Fin 16) : t.readByte (s.dstAddr + BitVec.ofNat 32 (4 * i.val)) = s.blk[i] :=
    hstored (_, _) (mem_stb4Cells s i)
  refine ⟨_, execExt4_of_backed fun i => ?_, Vector.ext fun i hi => ?_⟩
  · rw [ext4Addr, addrAt_dense]
    exact hback i
  · rw [Vector.getElem_ofFn, ext4Addr, addrAt_dense]
    exact hread ⟨i, hi⟩

end Sys2Proof.Machine
end

section
/-! PROOFS. The statements about the whole machine: the invariant of every step (10_state.md R14 to R17), which steps reach
a slot (R13, R25), what no step changes, and the one form of a memory (log 3). -/

namespace Sys2Proof.Machine

open Sys2Proof.Safety

/-! ### The invariant (10_state.md R14 to R17) -/

theorem slotOk_free : slotOk OptSlot.free := ⟨Nat.zero_le _, fun _ => rfl⟩

/-- A valid slot is in order when its quality is a pattern of [0.0, 1.0]. -/
theorem slotOk_valid {q : Word} (hq : q.toNat ≤ 0x3F800000) : slotOk ⟨true, q⟩ := ⟨hq, fun h => Bool.noConfusion h⟩

theorem slotOk_set {opts : List OptSlot} {o : OptSlot} (hopts : ∀ x ∈ opts, slotOk x) (ho : slotOk o) (k : Nat) :
    ∀ x ∈ opts.set k o, slotOk x := fun x hx =>
  (List.mem_or_eq_of_mem_set hx).elim (hopts x) fun h => h ▸ ho

/-- After reset of the block, with any memory that is in order, the invariant holds. -/
theorem inv_resetBlock {s : State} (hcount : 1 ≤ s.opts.length ∧ s.opts.length ≤ 255) (hmem : s.mem.wf = true) :
    Inv (resetBlock s) where
  slots _ ho := resetBlock_slot_free ho ▸ slotOk_free
  slotCount := by rwa [resetBlock_opts, List.length_replicate]
  status := .inl rfl
  result := Nat.zero_le _
  memory := hmem

/-- Settles O45: the state after reset is one that reset gives. -/
theorem resetMeetsTheInvariant : Obligations.ResetMeetsTheInvariant := by
  unfold Obligations.ResetMeetsTheInvariant
  rw [← resetBlock_reset]
  exact inv_resetBlock (by decide) rfl

section
variable {i : Instr} {op : HostOp} {s t : State}

theorem exec_opts_length (h : exec i s = .next t) : t.opts.length = s.opts.length := by
  rcases exec_opts h with hopts | ⟨-, k, hopts⟩ | ⟨k, -, hopts⟩ | ⟨k, -, -, hopts⟩
  · rw [hopts]
  all_goals rw [hopts, List.length_set]

theorem exec_slots_ok (hs : ∀ o ∈ s.opts, slotOk o) (h : exec i s = .next t) : ∀ o ∈ t.opts, slotOk o := by
  rcases exec_opts h with hopts | ⟨-, k, hopts⟩ | ⟨k, -, hopts⟩ | ⟨k, -, -, hopts⟩ <;> rw [hopts]
  · exact hs
  · exact slotOk_set hs (slotOk_valid (by decide)) k
  · exact slotOk_set hs slotOk_free k
  · exact slotOk_set hs (slotOk_valid (clampQ_le _)) k

theorem exec_statusOk (h : exec i s = .next t) : statusOk t.status := by
  rcases exec_status h with ⟨hok, -⟩ | ⟨-, -, rfl⟩ | ⟨k, -, -, rfl⟩
  · exact .inl hok
  · exact .inr (.inl rfl)
  · exact .inr (.inr (.inl rfl))

/-- Only OPT_CREATE writes RESULT, and it writes null or the handle of a slot. -/
theorem exec_result_le (hs : s.result.toNat ≤ s.opts.length) (h : exec i s = .next t) :
    t.result.toNat ≤ s.opts.length := by
  by_cases hi : i = .optCreate
  · subst hi
    rcases execOptCreate_next h with ⟨-, rfl⟩ | ⟨k, hk, rfl⟩
    · exact Nat.zero_le _
    · obtain ⟨hlt, -⟩ := leastFree_some_iff.1 hk
      exact (BitVec.toNat_ofNat ..).trans_le ((Nat.mod_le _ _).trans hlt)
  · obtain ⟨-, -, -, hresult, -⟩ := commandsLeaveTheOtherRegisters i s t h
    rwa [hresult hi]

theorem exec_keeps_inv (hs : Inv s) (h : exec i s = .next t) : Inv t where
  slots := exec_slots_ok hs.slots h
  slotCount := exec_opts_length h ▸ hs.slotCount
  status := exec_statusOk h
  result := exec_opts_length h ▸ exec_result_le hs.result h
  memory := exec_mem h ▸ Memory.writeCells_wf hs.memory _

/-- The invariant speaks of the slots, STATUS, RESULT and memory only. -/
theorem inv_of_eq (hs : Inv s) (hopts : t.opts = s.opts) (hstatus : t.status = s.status) (hresult : t.result = s.result)
    (hmem : t.mem = s.mem) : Inv t where
  slots := hopts ▸ hs.slots
  slotCount := hopts ▸ hs.slotCount
  status := hstatus ▸ hs.status
  result := hopts ▸ hresult ▸ hs.result
  memory := hmem ▸ hs.memory

theorem hostStep_keeps_inv (hs : Inv s) (h : hostStep op s = .next t) : Inv t := by
  rcases hostStep_next h with ⟨w, i, -, -, hi⟩ | ⟨w, e, -, -, hill⟩ | ⟨blk, cb, arg, src, stride, dst, rfl⟩ | ⟨r, rfl⟩ |
    ⟨cells, rfl⟩ | ⟨-, rfl⟩ | ⟨w, -, hcut⟩
  · exact exec_keeps_inv hs hi
  · obtain rfl := raise_next.1 hill
    exact ⟨hs.slots, hs.slotCount, .inr (.inr (.inr rfl)), hs.result, hs.memory⟩
  · exact inv_of_eq hs rfl rfl rfl rfl
  · exact inv_of_eq hs rfl rfl rfl rfl
  · exact ⟨hs.slots, hs.slotCount, hs.status, hs.result, Memory.writeCells_wf hs.memory cells⟩
  · exact inv_resetBlock hs.slotCount hs.memory
  · obtain ⟨u, -, rfl⟩ := resetCut_next hcut
    exact inv_resetBlock hs.slotCount (Memory.writeCells_wf hs.memory _)

/-- What a step can be: idle, or the first pending operation on the state with that operation taken off the list. -/
theorem step_cases (h : step s = .next t) :
    (s.host = [] ∧ t = s) ∨ ∃ op rest, s.host = op :: rest ∧ hostStep op { s with host := rest } = .next t := by
  cases hhost : s.host with
  | nil =>
    rw [step_nil hhost] at h
    cases h
    exact .inl ⟨rfl, rfl⟩
  | cons op rest => exact .inr ⟨op, rest, rfl, step_cons hhost ▸ h⟩

end

/-- Settles O46: an idle step changes nothing, and each host operation keeps the invariant. -/
theorem stepKeepsTheInvariant : Obligations.StepKeepsTheInvariant := by
  unfold Obligations.StepKeepsTheInvariant
  intro s t hs h
  rcases step_cases h with ⟨-, rfl⟩ | ⟨op, rest, -, hstep⟩
  · exact hs
  · exact hostStep_keeps_inv (inv_of_eq (t := { s with host := rest }) hs rfl rfl rfl rfl) hstep

/-! ### Which steps reach a slot (10_state.md R13, R25) -/

/-- The next step of the host runs the command `i`. -/
def Runs (s : State) (i : Instr) : Prop := ∃ w rest, s.host = .write .word 0x00 w :: rest ∧ decode w = .ok i

/-- The next step of the host is a reset, between commands or during one. -/
def Resets (s : State) : Prop := (∃ rest, s.host = .reset :: rest) ∨ ∃ w rest, s.host = .resetDuring w :: rest

section
variable {i : Instr} {k : Nat} {o o' : OptSlot} {s t : State}

/-- A slot of a list with one slot replaced is the old one or the replaced one. -/
theorem slot_of_set {opts : List OptSlot} {j : Nat} {x : OptSlot} (ho : opts[k]? = some o)
    (ho' : (opts.set j x)[k]? = some o') : o' = o ∨ (j = k ∧ o' = x) := by
  by_cases hjk : j = k
  · subst hjk
    obtain ⟨hj, -⟩ := List.getElem?_eq_some_iff.1 ho
    rw [List.getElem?_set_self hj] at ho'
    exact .inr ⟨rfl, (Option.some.inj ho').symm⟩
  · rw [List.getElem?_set_ne hjk, ho] at ho'
    exact .inl (Option.some.inj ho').symm

/-- What a command can do to one slot. -/
theorem exec_slot (h : exec i s = .next t) (ho : s.opts[k]? = some o) (ho' : t.opts[k]? = some o') :
    o' = o ∨ (i = .optCreate ∧ o'.valid = true) ∨ (i = .optDestroy (k + 1) ∧ o' = OptSlot.free) ∨
      (i = .optSetq (k + 1) ∧ o.valid = true ∧ o'.valid = true) := by
  rcases exec_opts h with hopts | ⟨hi, j, hopts⟩ | ⟨j, hi, hopts⟩ | ⟨j, hi, hl, hopts⟩ <;> rw [hopts] at ho'
  · exact .inl (Option.some.inj (ho'.symm.trans ho))
  · exact (slot_of_set ho ho').imp_right fun ⟨_, hx⟩ => .inl ⟨hi, hx ▸ rfl⟩
  · refine (slot_of_set ho ho').imp_right fun ⟨hj, hx⟩ => .inr (.inl ⟨?_, hx⟩)
    rw [hi, hj]
  · refine (slot_of_set ho ho').imp_right fun ⟨hj, hx⟩ => .inr (.inr ⟨?_, ?_, hx ▸ rfl⟩)
    · rw [hi, hj]
    · subst hj
      obtain ⟨_, hslot, hvalid⟩ := (isLive_succ j s).1 hl
      rwa [← Option.some.inj (hslot.symm.trans ho)]

theorem slot_of_resetBlock (ho' : (resetBlock s).opts[k]? = some o') : o' = OptSlot.free :=
  resetBlock_slot_free (List.mem_of_getElem? ho')

/-- What a step can do to one slot. -/
theorem step_slot (h : step s = .next t) (ho : s.opts[k]? = some o) (ho' : t.opts[k]? = some o') :
    o' = o ∨ (Runs s .optCreate ∧ o'.valid = true) ∨ (Runs s (.optDestroy (k + 1)) ∧ o' = OptSlot.free) ∨
      (Runs s (.optSetq (k + 1)) ∧ o.valid = true ∧ o'.valid = true) ∨ (Resets s ∧ o' = OptSlot.free) := by
  have hsame (hopts : t.opts = s.opts) : o' = o := Option.some.inj ((hopts ▸ ho').symm.trans ho)
  rcases step_cases h with ⟨-, rfl⟩ | ⟨op, rest, hhost, hstep⟩
  · exact .inl (hsame rfl)
  rcases hostStep_next hstep with ⟨w, i, rfl, hd, hi⟩ | ⟨w, e, -, -, hill⟩ | ⟨blk, cb, arg, src, stride, dst, rfl⟩ |
    ⟨r, rfl⟩ | ⟨cells, rfl⟩ | ⟨rfl, rfl⟩ | ⟨w, rfl, hcut⟩
  · rcases exec_slot hi ho ho' with heq | ⟨rfl, hv⟩ | ⟨rfl, hfree⟩ | ⟨rfl, hlive⟩
    · exact .inl heq
    · exact .inr (.inl ⟨⟨w, rest, hhost, hd⟩, hv⟩)
    · exact .inr (.inr (.inl ⟨⟨w, rest, hhost, hd⟩, hfree⟩))
    · exact .inr (.inr (.inr (.inl ⟨⟨w, rest, hhost, hd⟩, hlive⟩)))
  · obtain rfl := raise_next.1 hill
    exact .inl (hsame rfl)
  · exact .inl (hsame rfl)
  · exact .inl (hsame rfl)
  · exact .inl (hsame rfl)
  · exact .inr (.inr (.inr (.inr ⟨.inl ⟨rest, hhost⟩, slot_of_resetBlock ho'⟩)))
  · obtain ⟨u, -, rfl⟩ := resetCut_next hcut
    exact .inr (.inr (.inr (.inr ⟨.inr ⟨w, rest, hhost⟩, slot_of_resetBlock ho'⟩)))

end

/-- Settles O11, from what a step can do to one slot. -/
theorem slotsChangeOnlyByOptionCommandsAndReset : Obligations.SlotsChangeOnlyByOptionCommandsAndReset := by
  unfold Obligations.SlotsChangeOnlyByOptionCommandsAndReset
  intro s t k o o' h ho ho' runs resets
  rcases step_slot h ho ho' with rfl | ⟨hcreate, hv⟩ | ⟨hdestroy, rfl⟩ | ⟨hsetq, hv, hv'⟩ | ⟨hreset, rfl⟩
  · exact ⟨fun hf ht => absurd ht (by simp [hf]), fun ht hf => absurd ht (by simp [hf]), fun hne => absurd rfl hne⟩
  · exact ⟨fun _ _ => hcreate, fun _ hf => absurd hv (by simp [hf]), fun _ => .inl hcreate⟩
  · exact ⟨fun _ ht => Bool.noConfusion ht, fun _ _ => .inl hdestroy, fun _ => .inr (.inr (.inl hdestroy))⟩
  · exact ⟨fun hf => absurd hv (by simp [hf]), fun _ hf => absurd hv' (by simp [hf]), fun _ => .inr (.inl hsetq)⟩
  · exact ⟨fun _ ht => Bool.noConfusion ht, fun _ _ => .inr hreset, fun _ => .inr (.inr (.inr hreset))⟩

/-! ### What no step changes (00_scope.md R4, 10_state.md R19) -/

theorem hostStep_keeps_platform {op : HostOp} {s t : State} (h : hostStep op s = .next t) :
    t.opts.length = s.opts.length ∧ t.backed = s.backed ∧ t.host = s.host ∧ ∃ more, t.reads = s.reads ++ more := by
  have hreads : s.reads = s.reads ++ [] := (List.append_nil _).symm
  rcases hostStep_next h with ⟨w, i, -, -, hi⟩ | ⟨w, e, -, -, hill⟩ | ⟨blk, cb, arg, src, stride, dst, rfl⟩ | ⟨r, rfl⟩ |
    ⟨cells, rfl⟩ | ⟨-, rfl⟩ | ⟨w, -, hcut⟩
  · obtain ⟨hbacked, hhost, hr, -⟩ := exec_keeps_outside hi
    exact ⟨exec_opts_length hi, hbacked, hhost, [], hr.trans hreads⟩
  · obtain rfl := raise_next.1 hill
    exact ⟨rfl, rfl, rfl, [], hreads⟩
  · exact ⟨rfl, rfl, rfl, [], hreads⟩
  · exact ⟨rfl, rfl, rfl, [r], rfl⟩
  · exact ⟨rfl, rfl, rfl, [], hreads⟩
  · exact ⟨List.length_replicate, rfl, rfl, [], hreads⟩
  · obtain ⟨u, -, rfl⟩ := resetCut_next hcut
    exact ⟨List.length_replicate, rfl, rfl, [], hreads⟩

/-- Settles O47: the step takes the operation off the list, and the operation itself keeps the rest. -/
theorem stepKeepsThePlatformAndTheOrder : Obligations.StepKeepsThePlatformAndTheOrder := by
  unfold Obligations.StepKeepsThePlatformAndTheOrder
  intro s t h
  rcases step_cases h with ⟨hidle, rfl⟩ | ⟨op, rest, hhost, hstep⟩
  · exact ⟨rfl, rfl, by rw [hidle, List.tail_nil], [], (List.append_nil _).symm⟩
  · rw [hhost, List.tail_cons]
    exact hostStep_keeps_platform hstep

/-! ### The one form of a memory (20_memory.md R31; log 3) -/

/-- A memory that reads as written at an address lists it, so its lower bound is not above the address. -/
theorem Memory.bound_le_of_read {lo a : Nat} {m : Memory} (hm : m.wfFrom lo = true)
    (hread : m.read a ≠ Config.unwrittenByte) : lo ≤ a :=
  not_lt.1 fun hlt => hread (Memory.read_below hm hlt)

/-- Two canonical memories that read alike are equal: each lists its first address, which the other lists too, so the
first cells agree; below and at that address their rests list nothing, and above it they read alike. -/
theorem Memory.eq_of_read_eq {lo lo' : Nat} {m m' : Memory} (hm : m.wfFrom lo = true) (hm' : m'.wfFrom lo' = true)
    (hread : ∀ a < 2 ^ 32, m.read a = m'.read a) : m = m' := by
  induction m generalizing lo lo' m' with
  | nil =>
    cases m' with
    | nil => rfl
    | cons c' m' =>
      obtain ⟨-, hlt', hv', -⟩ := (Memory.wfFrom_cell ..).1 hm'
      have hcell := hread c'.1 hlt'
      rw [Memory.read_nil, Memory.read_cell, if_pos rfl] at hcell
      exact absurd hcell.symm hv'
  | cons c m ih =>
    obtain ⟨-, hlt, hv, htail⟩ := (Memory.wfFrom_cell ..).1 hm
    have hfirst : Memory.read (c :: m) c.1 = c.2 := by rw [Memory.read_cell, if_pos rfl]
    cases m' with
    | nil =>
      have hcell := hread c.1 hlt
      rw [hfirst, Memory.read_nil] at hcell
      exact absurd hcell hv
    | cons c' m' =>
      obtain ⟨-, hlt', hv', htail'⟩ := (Memory.wfFrom_cell ..).1 hm'
      have hfirst' : Memory.read (c' :: m') c'.1 = c'.2 := by rw [Memory.read_cell, if_pos rfl]
      have hle : c.1 ≤ c'.1 := Memory.bound_le_of_read ((Memory.wfFrom_cell ..).2 ⟨le_rfl, hlt, hv, htail⟩)
        (by rwa [hread _ hlt', hfirst'])
      have hle' : c'.1 ≤ c.1 := Memory.bound_le_of_read ((Memory.wfFrom_cell ..).2 ⟨le_rfl, hlt', hv', htail'⟩)
        (by rwa [← hread _ hlt, hfirst])
      have haddr : c.1 = c'.1 := le_antisymm hle hle'
      have hcell : c = c' := Prod.ext haddr (by rw [← hfirst, hread _ hlt, haddr, hfirst'])
      subst hcell
      rw [ih htail htail' fun a ha => ?_]
      rcases Nat.lt_or_ge a (c.1 + 1) with hbelow | habove
      · rw [Memory.read_below htail hbelow, Memory.read_below htail' hbelow]
      · have hne : a ≠ c.1 := by omega
        have hsame := hread a ha
        rwa [Memory.read_cell, Memory.read_cell, if_neg hne, if_neg hne] at hsame

/-- Settles O48, by induction on one memory against the other. -/
theorem canonicalMemoriesThatReadAlikeAreEqual : Obligations.CanonicalMemoriesThatReadAlikeAreEqual := by
  unfold Obligations.CanonicalMemoriesThatReadAlikeAreEqual
  intro m m' hm hm' hread
  refine Memory.eq_of_read_eq hm hm' fun a ha => ?_
  have hword := hread (BitVec.ofNat 32 a)
  rwa [BitVec.toNat_ofNat, Nat.mod_eq_of_lt ha] at hword

end Sys2Proof.Machine
end

section
/-! PROOFS. The statements about the host port: the register map (10_state.md R22), the host's own memory accesses
(30_encoding.md R71) and RESET during a command (70_reset_and_hazards.md R141). -/

namespace Sys2Proof.Machine

open Sys2Proof.Safety

/-! ### The register map (10_state.md R22) -/

theorem regAt_blkw (nOpt : Nat) (n : Fin 4) : Machine.regAt nOpt (0x20 + 4 * n.val) = .blkw n := by
  fin_cases n <;> rfl

theorem regAt_cbw (nOpt : Nat) (n : Fin 2) : Machine.regAt nOpt (0x30 + 4 * n.val) = .cbw n := by
  fin_cases n <;> rfl

theorem regAt_optq {nOpt k : Nat} (hk : k < nOpt) : Machine.regAt nOpt (0x400 + 4 * k) = .optq k := by
  have hslot : (0x400 + 4 * k - 0x400) / 4 = k := by omega
  rw [regAt_high (by omega), hslot, if_pos (by omega)]

/-- The offsets above the windows that are no quality view are reserved. -/
theorem regAt_reserved {nOpt offset : Nat} (h : 0x38 ≤ offset) (hgap : offset < 0x400 ∨ 0x400 + 4 * nOpt ≤ offset) :
    Machine.regAt nOpt offset = .reserved := by
  rw [regAt_high h, if_neg (by omega)]

/-- Settles O49: the read returns the register at the offset, which each clause names. -/
theorem hostReadReturnsTheMappedRegister : Obligations.HostReadReturnsTheMappedRegister := by
  unfold Obligations.HostReadReturnsTheMappedRegister
  intro s offset rest haligned hhost
  refine ⟨readReg (s.regAt offset) s, (step_cons hhost).trans (hostStep_read haligned _), ?_⟩
  have hreg {r : Reg} (h : Machine.regAt s.opts.length offset = r) : readReg (s.regAt offset) s = readReg r s :=
    congrArg (readReg · s) h
  refine ⟨?_, ?_, ?_, ?_, ?_, ?_, ?_, ?_, ?_, ?_, ?_, ?_, ?_⟩
  iterate 8
    rintro rfl
    rfl
  · rintro n rfl
    exact hreg (regAt_blkw _ n)
  · rintro n rfl
    exact hreg (regAt_cbw _ n)
  · intro h
    exact hreg (regAt_reserved (by omega) (by omega))
  · rintro k hk rfl
    exact (hreg (regAt_optq hk)).trans (qualityOf_succ hk)
  · intro h hgap
    exact hreg (regAt_reserved (by omega) hgap)

/-- A write above the windows is ignored. -/
theorem writeReg_high {nOpt offset : Nat} (h : 0x38 ≤ offset) (v : Word) (s : State) :
    writeReg (Machine.regAt nOpt offset) v s = .next s := by
  rw [regAt_high h]
  split <;> rfl

/-- Settles O50: the write goes to the register at the offset, which each clause names. -/
theorem hostWriteReplacesOnlyThatRegister : Obligations.HostWriteReplacesOnlyThatRegister := by
  unfold Obligations.HostWriteReplacesOnlyThatRegister
  intro s offset v rest haligned hhost
  rw [step_cons hhost, hostStep_write haligned, State.regAt]
  refine ⟨?_, ?_, ?_, ?_, ?_, ?_, ?_⟩
  iterate 4
    rintro rfl
    rfl
  · rintro n rfl
    rw [regAt_blkw]
    rfl
  · rintro n rfl
    rw [regAt_cbw]
    rfl
  · rintro (rfl | rfl | rfl | h)
    · rfl
    · rfl
    · rfl
    · exact writeReg_high h v _

theorem accessOk_eq_false {width : AccessWidth} {offset : Nat} (h : width ≠ .word ∨ offset % 4 ≠ 0) :
    accessOk width offset = false := by
  rw [accessOk, Bool.and_eq_false_iff, decide_eq_false_iff_not, decide_eq_false_iff_not]
  exact h

/-- Settles O53: such an access fails the port's check. -/
theorem otherHostAccessesAreRefused : Obligations.OtherHostAccessesAreRefused := by
  unfold Obligations.OtherHostAccessesAreRefused
  intro s width offset v rest h hhost
  have hrefuse (r r' : Result) : (if accessOk width offset then r else r') = r' := by
    rw [accessOk_eq_false h, if_neg Bool.false_ne_true]
  rcases hhost with hhost | hhost <;> rw [step_cons hhost, hostStep, hrefuse]

/-- Settles O57: the step of an idle block. -/
theorem idleBlockHoldsItsState : Obligations.IdleBlockHoldsItsState := fun _ => step_nil

/-! ### The host's own memory accesses (30_encoding.md R71) -/

theorem hostCells_eq_consecutiveCells (addr : Word) (bytes : List Byte) :
    hostCells addr bytes = consecutiveCells addr fun k : Fin bytes.length => bytes[k] :=
  hostCells_eq addr bytes

theorem mem_hostCells_addrs {addr a : Word} {bytes : List Byte} :
    a ∈ (hostCells addr bytes).map Prod.fst ↔ ∃ k < bytes.length, a = addr + BitVec.ofNat 32 k := by
  rw [hostCells_eq_consecutiveCells, mem_consecutiveCells_addrs]

theorem hostCells_nodup (addr : Word) {bytes : List Byte} (hlen : bytes.length ≤ 2 ^ 32) :
    ((hostCells addr bytes).map Prod.fst).Nodup := by
  rw [hostCells_eq_consecutiveCells, consecutiveCells_addrs]
  exact offsets_nodup addr hlen

theorem hostAddrs_eq_hostCells_addrs (addr : Word) (bytes : List Byte) :
    hostAddrs addr bytes.length = (hostCells addr bytes).map Prod.fst := by
  rw [hostAddrs_eq, hostCells_eq_consecutiveCells, consecutiveCells_addrs]

theorem hostCells_bytes (addr : Word) (bytes : List Byte) : (hostCells addr bytes).map Prod.snd = bytes := by
  induction bytes generalizing addr with
  | nil => rfl
  | cons b bs ih => rw [hostCells, List.map_cons, ih]

/-- The addresses of cells just stored read back as the bytes stored. -/
theorem readByte_hostCells {s t : State} {addr : Word} {bytes : List Byte} (hw : s.mem.wf = true)
    (hlen : bytes.length ≤ 2 ^ 32) (ht : t.mem = s.mem.writeCells (hostCells addr bytes)) :
    (hostAddrs addr bytes.length).map t.readByte = bytes := by
  rw [hostAddrs_eq_hostCells_addrs, List.map_map]
  conv_rhs => rw [← hostCells_bytes addr bytes]
  refine List.map_congr_left fun c hc => ?_
  rw [Function.comp, readByte_eq, ht, Memory.read_writeCells_mem hw (hostCells_nodup addr hlen) hc]

/-- Settles O54: the read visits the addresses of the cells just stored, each stored once. -/
theorem hostMemoryReadsBackWhatItWrote : Obligations.HostMemoryReadsBackWhatItWrote := by
  unfold Obligations.HostMemoryReadsBackWhatItWrote
  intro s addr bytes rest hw hlen hb hhost
  have hback : ∀ a ∈ (hostCells addr bytes).map Prod.fst, s.isBacked a = true := by
    intro a ha
    obtain ⟨k, hk, rfl⟩ := mem_hostCells_addrs.1 ha
    exact hb k hk
  refine ⟨_, (step_cons hhost).trans (onHostBacked_of_backed hback _), ?_, fun a ha => ?_⟩
  · rw [step_cons rfl, hostStep, onHostBacked_of_backed (hostAddrs_eq_hostCells_addrs addr bytes ▸ hback),
      readByte_hostCells hw hlen rfl]
  · refine Memory.read_writeCells_other hw fun hmem => ?_
    obtain ⟨k, hk, hak⟩ := mem_hostCells_addrs.1 hmem
    exact ha k hk hak

/-! ### RESET during a command (70_reset_and_hazards.md R141) -/

/-- The addresses and the bytes of a command do not depend on the host's list. -/
theorem storeCells_withHost (i : Instr) (s : State) (rest : List HostOp) :
    storeCells i { s with host := rest } = storeCells i s := by
  cases i <;> rfl

theorem accessed_withHost (i : Instr) (s : State) (rest : List HostOp) :
    accessed i { s with host := rest } = accessed i s := by
  rw [accessed, accessed, storeCells_withHost]
  cases i <;> rfl

/-- A word written to CMD completes when its command's addresses are backed, and an illegal word always does. -/
theorem issue_completes {w : Word} {s : State} (hb : ∀ i, decode w = .ok i → ∀ a ∈ accessed i s, s.isBacked a = true) :
    ∃ t, issue w s = .next t := by
  rcases issue_cases w s with ⟨i, hd, hissue⟩ | ⟨e, -, hissue⟩
  · obtain ⟨t, ht⟩ := (commandsCompleteExactlyOnBackedAddresses i s).1 (hb i hd)
    exact ⟨t, hissue.trans ht⟩
  · exact ⟨_, hissue⟩

theorem resetCut_of_issue {w : Word} {s t : State} (h : issue w s = .next t) :
    resetCut w s = .next (resetBlock
      { s with
        mem := s.mem.writeCells (tornCells s.draws (wordCells w s))
        staleUsed := t.staleUsed
        illegalUsed := t.illegalUsed
        draws := s.draws + 1 }) := by
  rw [resetCut, h]

/-- The cells of a word are those of its command. -/
theorem mem_wordCells {w : Word} {s : State} {c : StoreCell} (h : c ∈ wordCells w s) :
    ∃ i, decode w = .ok i ∧ c ∈ storeCells i s := by
  unfold wordCells at h
  split at h
  · next i hd => exact ⟨i, hd, h⟩
  · cases h

/-- Settles O56: reset gives every register its value, and the bytes left in memory are some of the command's cells. -/
theorem resetDuringACommandTearsItsStore : Obligations.ResetDuringACommandTearsItsStore := by
  unfold Obligations.ResetDuringACommandTearsItsStore
  intro s w rest hw hhost hb
  obtain ⟨t, ht⟩ : ∃ t, issue w { s with host := rest } = .next t :=
    issue_completes fun i hd => (accessed_withHost i s rest).symm ▸ hb i hd
  refine ⟨_, (step_cons hhost).trans (resetCut_of_issue ht), rfl, rfl, rfl, rfl, rfl, rfl, rfl, rfl, rfl, fun a => ?_⟩
  refine (Memory.read_writeCells_cases hw _ a).imp_right fun hmem => ?_
  obtain ⟨i, hd, hcell⟩ := mem_wordCells (List.mem_of_mem_filter hmem)
  exact ⟨i, hd, storeCells_withHost i s rest ▸ hcell⟩

end Sys2Proof.Machine
end

section
/-! PROOFS. The statements about the pseudo-instructions (30_encoding.md R72, 43_block_io.md R112): three commands in a row,
each from the state the one before it left. -/

namespace Sys2Proof.Machine

section
variable {s : State} {rest : List HostOp}

/-- The host's mnemonic for a well-formed command runs it. -/
theorem step_command {i : Instr} (hwf : i.wellFormed = true) (hhost : s.host = command i :: rest) :
    step s = exec i { s with host := rest } :=
  stepRunsTheDecodedCommand.1 s (encode i) rest i hhost (encodedCommandDecodesBack i hwf)

theorem step_ext1 (hhost : s.host = command .ext1 :: rest) (hb : ∀ i, s.isBacked (ext1Addr s i) = true) :
    step s = .next { s with
      host := rest, blk := Vector.ofFn fun i => s.readByte (ext1Addr s i), status := 0#32 } :=
  (step_command rfl hhost).trans (execExt1_of_backed hb)

theorem step_ldcb (hhost : s.host = command .ldcb :: rest) (hb : ∀ j, s.isBacked (ldcbAddr s j) = true) :
    step s = .next { s with
      host := rest, cb := Vector.ofFn fun j => s.readByte (ldcbAddr s j), status := 0#32 } :=
  (step_command rfl hhost).trans (execLdcb_of_backed hb)

theorem step_enc {h : Nat} (hfits : h ≤ 255) (hr : h = 0 ∨ isLive h s = true)
    (hhost : s.host = command (.enc h) :: rest) :
    step s = .next { s with host := rest, cb := encodeBlock s.blk, status := 0#32 } :=
  (step_command (i := .enc h) ((handleFits_iff h).2 hfits) hhost).trans
    (execEnc_of_resolves (hr.imp_right (isLive_congr rfl h).trans))

theorem step_dec {h : Nat} (hfits : h ≤ 255) (hr : h = 0 ∨ isLive h s = true)
    (hhost : s.host = command (.dec h) :: rest) :
    step s = .next { s with host := rest, blk := decodeBlock s.cb, status := 0#32 } :=
  (step_command (i := .dec h) ((handleFits_iff h).2 hfits) hhost).trans
    (execDec_of_resolves (hr.imp_right (isLive_congr rfl h).trans))

theorem step_stcb (hhost : s.host = command .stcb :: rest) (hw : s.mem.wf = true)
    (hb : ∀ j < 8, s.isBacked (s.dstAddr + BitVec.ofNat 32 j) = true) :
    ∃ t, step s = .next t ∧ t = { s with host := rest, mem := t.mem, status := 0#32 } ∧
      (∀ (j : Nat) (hj : j < 8), t.readByte (s.dstAddr + BitVec.ofNat 32 j) = s.cb[j]) ∧
      ∀ a, (∀ j < 8, a ≠ s.dstAddr + BitVec.ofNat 32 j) → t.readByte a = s.readByte a := by
  rw [step_command rfl hhost, exec_stcb, execStcb_eq]
  exact storeAll_consecutiveCells (by norm_num) hw hb

theorem step_stb4 (hhost : s.host = command .stb4 :: rest) (hw : s.mem.wf = true)
    (hb : ∀ k < 64, s.isBacked (s.dstAddr + BitVec.ofNat 32 k) = true) :
    ∃ t, step s = .next t ∧ t = { s with host := rest, mem := t.mem, status := 0#32 } ∧
      (∀ (k : Nat) (hk : k < 64), t.readByte (s.dstAddr + BitVec.ofNat 32 k) = s.blk[k / 4]) ∧
      ∀ a, (∀ k < 64, a ≠ s.dstAddr + BitVec.ofNat 32 k) → t.readByte a = s.readByte a := by
  rw [step_command rfl hhost, exec_stb4, execStb4_eq]
  exact storeAll_consecutiveCells (by norm_num) hw hb

/-- The first two commands of COMPRESS1: CB holds the encoded tile, memory and DST_ADDR are as before. -/
theorem step_ext1_enc {h : Nat} (hfits : h ≤ 255) (hr : h = 0 ∨ isLive h s = true)
    (hhost : s.host = command .ext1 :: command (.enc h) :: rest) (hb : ∀ i, s.isBacked (ext1Addr s i) = true) :
    ∃ t u, step s = .next t ∧ step t = .next u ∧ u.host = rest ∧ u.mem = s.mem ∧ u.backed = s.backed ∧
      u.dstAddr = s.dstAddr ∧ u.cb = encodeBlock (Vector.ofFn fun i => s.readByte (ext1Addr s i)) := by
  obtain ⟨t, ht, hload⟩ : ∃ t, step s = .next t ∧ t = _ := ⟨_, step_ext1 hhost hb, rfl⟩
  have hlive : isLive h t = isLive h s := isLive_congr (by rw [hload]) h
  exact ⟨t, _, ht, step_enc hfits (hr.imp_right hlive.trans) (by rw [hload]), rfl, by rw [hload], by rw [hload],
    by rw [hload], by rw [hload]⟩

/-- The first two commands of DECOMPRESS4: BLK holds the decoded block, memory and DST_ADDR are as before. -/
theorem step_ldcb_dec {h : Nat} (hfits : h ≤ 255) (hr : h = 0 ∨ isLive h s = true)
    (hhost : s.host = command .ldcb :: command (.dec h) :: rest) (hb : ∀ j, s.isBacked (ldcbAddr s j) = true) :
    ∃ t u, step s = .next t ∧ step t = .next u ∧ u.host = rest ∧ u.mem = s.mem ∧ u.backed = s.backed ∧
      u.dstAddr = s.dstAddr ∧ u.blk = decodeBlock (Vector.ofFn fun j => s.readByte (ldcbAddr s j)) := by
  obtain ⟨t, ht, hload⟩ : ∃ t, step s = .next t ∧ t = _ := ⟨_, step_ldcb hhost hb, rfl⟩
  have hlive : isLive h t = isLive h s := isLive_congr (by rw [hload]) h
  exact ⟨t, _, ht, step_dec hfits (hr.imp_right hlive.trans) (by rw [hload]), rfl, by rw [hload], by rw [hload],
    by rw [hload], by rw [hload]⟩

end

/-- Settles O58: EXT1 loads the tile, ENC encodes it, STCB stores the eight bytes. -/
theorem compress1StoresTheEncodedTile : Obligations.Compress1StoresTheEncodedTile := by
  unfold Obligations.Compress1StoresTheEncodedTile
  intro h s rest hw hfits hr hhost hsrc hdst
  obtain ⟨t, u, ht, hu, huhost, humem, hubacked, hudst, hucb⟩ := step_ext1_enc hfits hr hhost hsrc
  rw [← hudst] at hdst ⊢
  obtain ⟨v, hv, hregs, hstored, hother⟩ := step_stcb huhost (humem ▸ hw) fun j hj =>
    (isBacked_congr hubacked _).trans (hdst j hj)
  refine ⟨t, u, v, ht, hu, hv, by rw [hregs]; rfl, by rw [hregs], fun j hj => ?_, fun a ha => ?_⟩
  · rw [hstored j hj, hucb]
  · rw [hother a ha, readByte_eq, readByte_eq, humem]

/-- Settles O59: LDCB loads the eight bytes, DEC decodes them, STB4 stores each sample four times. -/
theorem decompress4StoresTheDecodedTexels : Obligations.Decompress4StoresTheDecodedTexels := by
  unfold Obligations.Decompress4StoresTheDecodedTexels
  intro h s rest hw hfits hr hhost hsrc hdst
  obtain ⟨t, u, ht, hu, huhost, humem, hubacked, hudst, hublk⟩ := step_ldcb_dec hfits hr hhost hsrc
  rw [← hudst] at hdst ⊢
  obtain ⟨v, hv, hregs, hstored, hother⟩ := step_stb4 huhost (humem ▸ hw) fun k hk =>
    (isBacked_congr hubacked _).trans (hdst k hk)
  refine ⟨t, u, v, ht, hu, hv, by rw [hregs]; rfl, by rw [hregs], fun i n hi hn => ?_, fun a ha => ?_⟩
  · obtain ⟨htexel, -⟩ := rowCol_div_mod i hn
    rw [hstored (4 * i + n) (by omega), hublk]
    simp only [htexel]
  · rw [hother a ha, readByte_eq, readByte_eq, humem]

end Sys2Proof.Machine
end
